-- ==== Sys2Proof/Word.lean ====
section
/-! DEFINITION. The number types of the block (00_scope.md R7): all unsigned, bit 0 the least significant. -/

namespace Sys2Proof

/-- A byte: 8 bits (00_scope.md R7). -/
abbrev Byte := BitVec 8

/-- A word: 32 bits (00_scope.md R7). -/
abbrev Word := BitVec 32

/-- A command word, and the width of the length counter: 64 bits (00_scope.md R7). -/
abbrev Word64 := BitVec 64

/-- The accumulator's shape: four words A, B, C, D at indices 0 to 3 (10_state.md R21). -/
abbrev Accumulator := Vector Word 4

/-- A block: 64 bytes (00_scope.md R6, BLOCK_BYTES). -/
abbrev Block := Vector Byte 64

end Sys2Proof
end

