-- ==== Sys2Proof/Syntax.lean ====
section
/-! DEFINITION. The commands of the block: one constructor per row of spec/opcode_table.json (30_encoding.md R75). -/

namespace Sys2Proof

/-- A decoded command. An index operand is the whole IDX field, of which a command uses the low bits of its index
width (30 R73); a data operand is DATA, or its low byte for ABSORB (30 R74). -/
inductive Instr where
  /-- NOP, 0x00 (43_control.md R190) -/
  | nop
  /-- INIT, 0x01 (40_padding_encoder.md R104) -/
  | init
  /-- ABSORB, 0x02 (40 R106) -/
  | absorb (b : Byte)
  /-- ABSORBW, 0x03 (40 R107) -/
  | absorbw (data : Word)
  /-- FINAL, 0x04 (40 R108) -/
  | final
  /-- RDDIG, 0x05 (42_digest_serializer.md R173) -/
  | rddig (idx : Byte)
  /-- RDHEX, 0x06 (42 R174) -/
  | rdhex (idx : Byte)
  /-- RDACC, 0x07 (42 R175) -/
  | rdacc (idx : Byte)
  /-- RDSTAT, 0x08 (43 R192) -/
  | rdstat
  /-- RDLEN, 0x09 (43 R193) -/
  | rdlen (idx : Byte)
  /-- IDLE, 0x0A (43 R191) -/
  | idle
  /-- LOADA, 0x0B (41_block_compressor.md R141) -/
  | loada (idx : Byte) (data : Word)
  /-- LOADX, 0x0C (41 R142) -/
  | loadx (idx : Byte) (data : Word)
  /-- COMPRESS, 0x0D (41 R143) -/
  | compress
  /-- RDX, 0x0E (41 R144) -/
  | rdx (idx : Byte)
  deriving DecidableEq, Repr

/-- Why the decoder rejects a command word (60_exceptions.md R212 to R214). -/
inductive DecodeError where
  /-- OP is 0x0F or more (60 R212). -/
  | illegalOp
  /-- RSVD, an unused IDX or an unused DATA bit is not zero (60 R213). -/
  | rsvdNonzero
  /-- IDX is beyond the command's index range (60 R214). -/
  | badIndex
  deriving DecidableEq, Repr

end Sys2Proof
end

