-- ==== Sys2Proof/WellFormed.lean ====
section
/-! DEFINITION. Which commands have an encoding that decodes: the operands the assembler accepts (30_encoding.md R73,
R80: it "refuses an operand that does not fit its field"). -/

namespace Sys2Proof

/-- The index is within the command's count of legal indices (30 R73: 16 digest bytes, 32 hex characters, 4 accumulator
words, 16 buffer words, 2 length halves). Byte and data operands fit their fields by their types. -/
def Instr.wellFormed : Instr → Bool
  | .nop => true
  | .init => true
  | .absorb _ => true
  | .absorbw _ => true
  | .final => true
  | .rddig idx => decide (idx.toNat < 16)
  | .rdhex idx => decide (idx.toNat < 32)
  | .rdacc idx => decide (idx.toNat < 4)
  | .rdstat => true
  | .rdlen idx => decide (idx.toNat < 2)
  | .idle => true
  | .loada idx _ => decide (idx.toNat < 4)
  | .loadx idx _ => decide (idx.toNat < 16)
  | .compress => true
  | .rdx idx => decide (idx.toNat < 16)

end Sys2Proof
end

