-- ==== Sys2Proof/Decode.lean ====
section
/-! DEFINITION. The decoder, total on every 64-bit word and rejecting by name (30_encoding.md R70 to R79), and after it
the encoder, written from the same format. -/

namespace Sys2Proof

/-- OP = w[63:56] (30 R72). -/
def opField (w : Word64) : Byte := w.extractLsb' 56 8

/-- IDX = w[55:48] (30 R72). -/
def idxField (w : Word64) : Byte := w.extractLsb' 48 8

/-- RSVD = w[47:32] (30 R72). -/
def rsvdField (w : Word64) : BitVec 16 := w.extractLsb' 32 16

/-- DATA = w[31:0] (30 R72). -/
def dataField (w : Word64) : Word := w.extractLsb' 0 32

/-- The opcode map of 30 R75, the operands taken from their fields; none for an opcode not in it (30 R77). -/
def instrOf (op idx : Byte) (data : Word) : Option Instr :=
  match op.toNat with
  | 0x00 => some .nop
  | 0x01 => some .init
  | 0x02 => some (.absorb (data.extractLsb' 0 8))
  | 0x03 => some (.absorbw data)
  | 0x04 => some .final
  | 0x05 => some (.rddig idx)
  | 0x06 => some (.rdhex idx)
  | 0x07 => some (.rdacc idx)
  | 0x08 => some .rdstat
  | 0x09 => some (.rdlen idx)
  | 0x0a => some .idle
  | 0x0b => some (.loada idx data)
  | 0x0c => some (.loadx idx data)
  | 0x0d => some .compress
  | 0x0e => some (.rdx idx)
  | _ => none

/-- `idxwidth` of 30 R76: the column "idx" of 30 R75. -/
def idxWidth : Instr → Option Nat
  | .nop => none
  | .init => none
  | .absorb _ => none
  | .absorbw _ => none
  | .final => none
  | .rddig _ => some 4
  | .rdhex _ => some 5
  | .rdacc _ => some 2
  | .rdstat => none
  | .rdlen _ => some 1
  | .idle => none
  | .loada _ _ => some 2
  | .loadx _ _ => some 4
  | .compress => none
  | .rdx _ => some 4

/-- `datamask` of 30 R76: the DATA bits the command uses. -/
def dataMask : Instr → Word
  | .nop => 0
  | .init => 0
  | .absorb _ => 0x000000ff
  | .absorbw _ => 0xffffffff
  | .final => 0
  | .rddig _ => 0
  | .rdhex _ => 0
  | .rdacc _ => 0
  | .rdstat => 0
  | .rdlen _ => 0
  | .idle => 0
  | .loada _ _ => 0xffffffff
  | .loadx _ _ => 0xffffffff
  | .compress => 0
  | .rdx _ => 0

/-- The index check of 30 R76, after the other fields have passed. -/
def checkIndex (idx : Byte) (i : Instr) : Except DecodeError Instr :=
  match idxWidth i with
  | none => if idx ≠ 0 then .error .rsvdNonzero else .ok i
  | some n => if idx >>> n ≠ 0 then .error .badIndex else .ok i

/-- The decode procedure of 30 R76 up to its phase check, the checks in its order; the phase check needs the state and
is each command's own. -/
def decode (w : Word64) : Except DecodeError Instr :=
  match instrOf (opField w) (idxField w) (dataField w) with
  | none => .error .illegalOp
  | some i =>
    if rsvdField w ≠ 0 then .error .rsvdNonzero
    else if dataField w &&& ~~~ dataMask i ≠ 0 then .error .rsvdNonzero
    else checkIndex (idxField w) i

/-- The column "OP" of 30 R75. -/
def opcode : Instr → Byte
  | .nop => 0x00
  | .init => 0x01
  | .absorb _ => 0x02
  | .absorbw _ => 0x03
  | .final => 0x04
  | .rddig _ => 0x05
  | .rdhex _ => 0x06
  | .rdacc _ => 0x07
  | .rdstat => 0x08
  | .rdlen _ => 0x09
  | .idle => 0x0a
  | .loada _ _ => 0x0b
  | .loadx _ _ => 0x0c
  | .compress => 0x0d
  | .rdx _ => 0x0e

/-- What stands in IDX: the index operand, 0 for a command without one (30 R70). -/
def idxOperand : Instr → Byte
  | .nop => 0
  | .init => 0
  | .absorb _ => 0
  | .absorbw _ => 0
  | .final => 0
  | .rddig idx => idx
  | .rdhex idx => idx
  | .rdacc idx => idx
  | .rdstat => 0
  | .rdlen idx => idx
  | .idle => 0
  | .loada idx _ => idx
  | .loadx idx _ => idx
  | .compress => 0
  | .rdx idx => idx

/-- What stands in DATA: the data operand, 0 for a command without one (30 R70). -/
def dataOperand : Instr → Word
  | .nop => 0
  | .init => 0
  | .absorb b => b.setWidth 32
  | .absorbw data => data
  | .final => 0
  | .rddig _ => 0
  | .rdhex _ => 0
  | .rdacc _ => 0
  | .rdstat => 0
  | .rdlen _ => 0
  | .idle => 0
  | .loada _ data => data
  | .loadx _ data => data
  | .compress => 0
  | .rdx _ => 0

/-- A command word from its four fields (30 R70). -/
def packFields (op idx : Byte) (rsvd : BitVec 16) (data : Word) : Word64 :=
  (op.setWidth 64 <<< 56) ||| (idx.setWidth 64 <<< 48) ||| (rsvd.setWidth 64 <<< 32) ||| data.setWidth 64

/-- The word of a command: the format of 30 R70 with RSVD zero. -/
def encode (i : Instr) : Word64 := packFields (opcode i) (idxOperand i) 0 (dataOperand i)

/-- What the decoder reads from a table word: a command is one 64-bit word whose bits the table numbers as R70 does. -/
def decodeTableWord (nbits w : Nat) : Option Instr :=
  match decode (BitVec.ofNat 64 (w % 2 ^ nbits)) with
  | .ok i => some i
  | .error _ => none

end Sys2Proof
end

