-- ==== Sys2Proof/Machine/Bytes.lean ====
section
/-! DEFINITION. The notation primitives of 00_scope.md R8 and R9: rotation, byte order, zero extension. -/

namespace Sys2Proof.Machine

/-- rotl(x, s) for 1 <= s <= 31: logical shifts joined by OR (00_scope.md R8). -/
def rotl (x : Word) (s : Nat) : Word := (x <<< s) ||| (x >>> (32 - s))

/-- The word b0 + 2^8 b1 + 2^16 b2 + 2^24 b3 (00 R9). -/
def le32 (b0 b1 b2 b3 : Byte) : Word :=
  b0.setWidth 32 ||| (b1.setWidth 32 <<< 8) ||| (b2.setWidth 32 <<< 16) ||| (b3.setWidth 32 <<< 24)

/-- w[8j+7 : 8j] of a word (00 R7, R9). -/
def byteOf (w : Word) (j : Nat) : Byte := w.extractLsb' (8 * j) 8

/-- v[8j+7 : 8j] of a 64-bit number (00 R7, R9). -/
def byteOf64 (v : Word64) (j : Nat) : Byte := v.extractLsb' (8 * j) 8

/-- The four bytes of a word, least significant first (00 R9). -/
def bytesLe32 (w : Word) : List Byte := [byteOf w 0, byteOf w 1, byteOf w 2, byteOf w 3]

/-- The eight bytes of a 64-bit number, least significant first (00 R9). -/
def bytesLe64 (v : Word64) : List Byte := (List.range 8).map (byteOf64 v)

/-- The list of n bytes 0x00 (00 R9). -/
def zeros (n : Nat) : List Byte := List.replicate n 0

/-- zext_32: zero bits above (30_encoding.md R72). -/
def zext32 {n : Nat} (v : BitVec n) : Word := v.setWidth 32

end Sys2Proof.Machine
end

