-- ==== Sys2Proof/Machine/Compression.lean ====
section
/-! DEFINITION. The compression function of 41_block_compressor.md section 1. -/

namespace Sys2Proof.Machine

/-- X[j] = le32(BUF[4j], BUF[4j+1], BUF[4j+2], BUF[4j+3]), the word view of a block (20_memory.md R51). -/
def wordView (buf : Block) (j : Fin 16) : Word :=
  le32 buf[4 * j.val] buf[4 * j.val + 1] buf[4 * j.val + 2] buf[4 * j.val + 3]

/-- The working registers a, b, c, d: they exist only during one compression (10_state.md R32). -/
structure Working where
  a : Word
  b : Word
  c : Word
  d : Word
  deriving DecidableEq, Repr

/-- f of round i, by quartile (41 R132). -/
def roundFn (i : Fin 64) (b c d : Word) : Word :=
  if i.val < 16 then (b &&& c) ||| (~~~b &&& d)
  else if i.val < 32 then (d &&& b) ||| (~~~d &&& c)
  else if i.val < 48 then b ^^^ c ^^^ d
  else c ^^^ (b ||| ~~~d)

/-- The number g of round i, by quartile (41 R133). -/
def msgIndexNat (i : Nat) : Nat :=
  if i < 16 then i
  else if i < 32 then (5 * i + 1) % 16
  else if i < 48 then (3 * i + 5) % 16
  else (7 * i) % 16

/-- g of round i: which message word the round reads; "always in 0 to 15" (41 R133). -/
def msgIndex (i : Fin 64) : Fin 16 :=
  ⟨msgIndexNat i.val, by unfold msgIndexNat; split <;> [skip; split <;> [skip; split]] <;> omega⟩

/-- Round i: temp, and the four registers from their values before the round (41 R134). -/
def roundStep (buf : Block) (w : Working) (i : Fin 64) : Working :=
  let temp := roundFn i w.b w.c w.d + w.a + tableK[i.val] + wordView buf (msgIndex i)
  { a := w.d, b := w.b + rotl temp (tableS i), c := w.b, d := w.c }

/-- The working registers start from the accumulator (41 R131). -/
def startWorking (acc : Accumulator) : Working := { a := acc[0], b := acc[1], c := acc[2], d := acc[3] }

/-- The 64 rounds, i = 0 to 63 in this order (41 R130). -/
def rounds (buf : Block) (w : Working) : Working := (List.finRange 64).foldl (roundStep buf) w

/-- Compress(ACC, BUF): the rounds from the accumulator, then the accumulator update (41 R130, R135). -/
def compress (acc : Accumulator) (buf : Block) : Accumulator :=
  let w := rounds buf (startWorking acc)
  #v[acc[0] + w.a, acc[1] + w.b, acc[2] + w.c, acc[3] + w.d]

end Sys2Proof.Machine
end

