-- ==== Sys2Proof/Machine/Digest.lean ====
section
/-! DEFINITION. The other pure functions of 00_scope.md R11: Pad and Blocks (40_padding_encoder.md section 1), Serialize,
Hex and MD5 (42_digest_serializer.md section 1). -/

namespace Sys2Proof.Machine

/-- z = (55 - L) mod 64, in 0..63 (40 R100). -/
def padZeros (l : Nat) : Nat := ((55 - (l : Int)) % 64).toNat

/-- Pad(M) = M ++ [0x80] ++ zeros(z) ++ bytes_le64((L * 8) mod 2^64) (40 R100). -/
def pad (m : List Byte) : List Byte :=
  m ++ [0x80] ++ zeros (padZeros m.length) ++ bytesLe64 (BitVec.ofNat 64 (m.length * 8))

/-- Block n of a byte list: the bytes P[64n] to P[64n + 63] (40 R102). -/
def blockAt (p : List Byte) (n : Nat) : Block := Vector.ofFn fun j => p.getD (64 * n + j.val) 0

/-- Blocks(P): the |P| / 64 blocks in order (40 R102). -/
def blocks (p : List Byte) : List Block := (List.range (p.length / 64)).map (blockAt p)

/-- Serialize(ACC): byte 4k + j is ACC[k][8j+7 : 8j] (42 R170). -/
def serialize (acc : Accumulator) : Vector Byte 16 := Vector.ofFn fun n => byteOf acc[n.val / 4] (n.val % 4)

/-- The character of a four-bit value: '0' to '9', then 'a' to 'f' (42 R171). -/
def hexChar (v : BitVec 4) : Byte :=
  if v ≤ 9#4 then 0x30 + v.setWidth 8 else 0x61 + (v.setWidth 8 - 10)

/-- Hex(D): character 2n renders D[n][7:4], character 2n + 1 renders D[n][3:0] (42 R171). -/
def hex (d : Vector Byte 16) : Vector Byte 32 :=
  Vector.ofFn fun m =>
    if m.val % 2 = 0 then hexChar (d[m.val / 2].extractLsb' 4 4) else hexChar (d[m.val / 2].extractLsb' 0 4)

/-- foldl Compress IV (Blocks(Pad(M))), the accumulator of the source's control flow, for every M (40 R111). -/
def digestAcc (m : List Byte) : Accumulator := (blocks (pad m)).foldl compress iv

/-- MD5(M), "not defined" when the bit-length does not fit in 64 bits (42 R172; log 10). -/
def md5 (m : List Byte) : Option (Vector Byte 16) :=
  if 8 * m.length < 2 ^ 64 then some (serialize (digestAcc m)) else none

end Sys2Proof.Machine
end

