-- ==== Sys2Proof/Machine/State.lean ====
section
/-! DEFINITION. The state of one instance of the block (10_state.md R20), the response it holds at the port, and the
host's activity at the port that is still to come (70_reset_and_hazards.md R240); its value after reset (10 R34). -/

namespace Sys2Proof.Machine

/-- PHASE (10_state.md R26). "The value 3 is never held" (log 7). -/
inductive Phase where
  /-- no message computation open, raw compressor access allowed -/
  | idle
  /-- a message is being received -/
  | absorb
  /-- the digest of the message is in ACC and may be read -/
  | done
  deriving DecidableEq, Repr

/-- CAUSE (10_state.md R29, 60_exceptions.md R211). "Codes 5 to 15 are never produced" (log 7). -/
inductive Cause where
  /-- 0: no failure since the last INIT or reset -/
  | none
  /-- 1: ILLEGAL_OP -/
  | illegalOp
  /-- 2: RSVD_NONZERO -/
  | rsvdNonzero
  /-- 3: BAD_INDEX -/
  | badIndex
  /-- 4: BAD_PHASE -/
  | badPhase
  deriving DecidableEq, Repr

/-- A response: RSP_ERR and RSP_DATA (30_encoding.md R71). -/
structure Response where
  err : Bool
  data : Word
  deriving DecidableEq, Repr

/-- What the block's inputs are at one port sample (70 R240): rst_n; cmd_valid with cmd_word (none is cmd_valid = 0);
rsp_ready. -/
structure PortSample where
  rstN : Bool
  cmd : Option Word64
  rspReady : Bool
  deriving DecidableEq, Repr

/-- The state of the block and of its port. -/
structure State where
  /-- ACC[0..3] (10 R21) -/
  acc : Accumulator
  /-- BUF[0..63] (10 R23) -/
  buf : Block
  /-- FILL (10 R24) -/
  fill : BitVec 6
  /-- LEN (10 R27) -/
  len : Word64
  /-- PHASE (10 R26) -/
  phase : Phase
  /-- ERR (10 R25) -/
  err : Bool
  /-- LEN_OVF (10 R28) -/
  lenOvf : Bool
  /-- CAUSE (10 R29) -/
  cause : Cause
  /-- The response presented and not yet taken; none is rsp_valid = 0 (70 R241, R242). -/
  rsp : Option Response
  /-- The model's own: the command word presented and not yet accepted (70 R247; log 3). -/
  held : Option Word64
  /-- The model's own: the port samples to come, oldest first (70 R240; log 1). -/
  host : List PortSample
  deriving DecidableEq, Repr

/-- The block never stops: a failing command is a next state (60_exceptions.md R217, R219; 30 R77: "no encoding has
unpredictable behaviour"). No constructor, so nothing raises one, and no claim can rest on a fault: safe. -/
inductive Fault
  deriving DecidableEq, Repr

/-- Why the model gives a step no meaning. -/
inductive Refusal where
  /-- A command without a meaning yet; no arm raises it in this model. Safe: the run stops. -/
  | notModelled (mnemonic : String)
  /-- The port (Machine/Port.lean) raises it when the host changes or withdraws a command word it is presenting: "a model
  gives no meaning to such a run (refused)" (70 R247, 93_implementation_defined.md U3; log 3). Safe: the run stops. -/
  | hostBrokeHold
  deriving DecidableEq, Repr

/-- The state after reset: every value of 10_state.md R34; no response (70 R243: rsp_valid = 0); no word presented
(log 4); no port sample to come (DESIGN CHOICE, log 1). -/
def State.reset : State where
  acc := iv
  buf := Vector.replicate 64 0
  fill := 0
  len := 0
  phase := .idle
  err := false
  lenOvf := false
  cause := .none
  rsp := none
  held := none
  host := []

end Sys2Proof.Machine
end

