-- ==== Sys2Proof/Machine/Flags.lean ====
section
/-! DEFINITION. The status computations: codes of PHASE and CAUSE, STATUS, the wrap of LEN, and the phases that admit a
command. -/

namespace Sys2Proof.Machine

/-- The value of PHASE: IDLE = 0, ABSORB = 1, DONE = 2 (10_state.md R20, R26). -/
def Phase.code : Phase → BitVec 2
  | .idle => 0
  | .absorb => 1
  | .done => 2

/-- The value of CAUSE (60_exceptions.md R211). -/
def Cause.code : Cause → BitVec 4
  | .none => 0
  | .illegalOp => 1
  | .rsvdNonzero => 2
  | .badIndex => 3
  | .badPhase => 4

/-- The cause of a decoding failure (60 R212 to R214). -/
def causeOf : DecodeError → Cause
  | .illegalOp => .illegalOp
  | .rsvdNonzero => .rsvdNonzero
  | .badIndex => .badIndex

/-- STATUS = PHASE | (ERR << 2) | (LEN_OVF << 3) | (CAUSE << 4) | (FILL << 8) (10_state.md R30). -/
def State.status (s : State) : Word :=
  s.phase.code.setWidth 32 ||| ((BitVec.ofBool s.err).setWidth 32 <<< 2) |||
    ((BitVec.ofBool s.lenOvf).setWidth 32 <<< 3) ||| (s.cause.code.setWidth 32 <<< 4) ||| (s.fill.setWidth 32 <<< 8)

/-- LEN + 8 >= 2^64: the absorption of one byte wraps LEN (10_state.md R28). -/
def lenWraps (len : Word64) : Bool := decide (2 ^ 64 ≤ len.toNat + 8)

/-- The phase columns of 30_encoding.md R75. -/
def legalIn : Instr → Phase → Bool
  | .nop, _ => true
  | .init, _ => true
  | .absorb _, p => p == .absorb
  | .absorbw _, p => p == .absorb
  | .final, p => p == .absorb
  | .rddig _, p => p == .done
  | .rdhex _, p => p == .done
  | .rdacc _, _ => true
  | .rdstat, _ => true
  | .rdlen _, _ => true
  | .idle, _ => true
  | .loada _ _, p => p == .idle
  | .loadx _ _, p => p == .idle
  | .compress, p => p == .idle
  | .rdx _, _ => true

end Sys2Proof.Machine
end

