-- ==== Sys2Proof/Machine/Operands.lean ====
section
/-! DEFINITION. The operand forms: "the index operand of an indexed command is the low n bits of IDX" (30_encoding.md
R73), and the bytes of a data operand, DATA[7:0] first (20_memory.md R54). -/

namespace Sys2Proof.Machine

/-- n = IDX[3:0], a digest byte (42 R173). -/
def digestIndex (idx : Byte) : Fin 16 := ⟨idx.toNat % 16, by omega⟩

/-- m = IDX[4:0], a hex character (42 R174). -/
def hexIndex (idx : Byte) : Fin 32 := ⟨idx.toNat % 32, by omega⟩

/-- k = IDX[1:0], an accumulator word (42 R175, 41 R141). -/
def accIndex (idx : Byte) : Fin 4 := ⟨idx.toNat % 4, by omega⟩

/-- k = IDX[3:0], a buffer word (41 R142, R144). -/
def wordIndex (idx : Byte) : Fin 16 := ⟨idx.toNat % 16, by omega⟩

/-- h = IDX[0], a half of LEN (43 R193). -/
def lenHalf (idx : Byte) : Nat := idx.toNat % 2

/-- LEN[32h+31 : 32h] (43 R193). -/
def halfOf (len : Word64) (h : Nat) : Word := len.extractLsb' (32 * h) 32

/-- BUF[4k + j] <- DATA[8j+7 : 8j] for j in 0..3, so that X[k] = DATA afterwards (41 R142). -/
def putWord (buf : Block) (k : Fin 16) (data : Word) : Block :=
  (((buf.set (4 * k.val) (byteOf data 0)).set (4 * k.val + 1) (byteOf data 1)).set
    (4 * k.val + 2) (byteOf data 2)).set (4 * k.val + 3) (byteOf data 3)

/-- for j in lo .. hi-1: BUF[j] <- 0x00 (40_padding_encoder.md R108). -/
def zeroRange (buf : Block) (lo hi : Nat) : Block :=
  Vector.ofFn fun j => if lo ≤ j.val ∧ j.val < hi then 0 else buf[j]

/-- for j in 0 .. 7: BUF[56 + j] <- LEN[8j+7 : 8j] (40 R108, 20 R52). -/
def putLength (buf : Block) (len : Word64) : Block :=
  Vector.ofFn fun j => if 56 ≤ j.val then byteOf64 len (j.val - 56) else buf[j]

end Sys2Proof.Machine
end

