-- ==== Sys2Proof/Machine/Ops.lean ====
section
/-! DEFINITION. The named operations on the state that the commands share: completing, failing, the phase check, and the
actions of the padding encoder. -/

namespace Sys2Proof.Machine

/-- rsp <- (0, d): the command completes (30_encoding.md R71). -/
def State.complete (d : Word) (s : State) : State := { s with rsp := some { err := false, data := d } }

/-- raise CmdError(c): "exactly this effect, and no other" (60_exceptions.md R217). The block has no other exception
entry and no return from one (60 R219). -/
def State.raise (c : Cause) (s : State) : State :=
  { s with err := true, cause := c, rsp := some { err := true, data := zext32 c.code } }

/-- The last check of 30 R76 and the command's own pseudocode after it. -/
def State.checked (i : Instr) (s : State) (effect : State → State) : Host.Outcome State Fault Refusal :=
  .next (if legalIn i s.phase then effect s else s.raise .badPhase)

/-- What INIT does to the state (40_padding_encoder.md R104). -/
def State.open (s : State) : State :=
  { s with
    acc := iv, buf := Vector.replicate 64 0, fill := 0, len := 0,
    err := false, lenOvf := false, cause := .none, phase := .absorb }

/-- absorb_byte(b): one message byte enters the padding encoder (40 R105). -/
def State.absorbByte (b : Byte) (s : State) : State :=
  let buf := s.buf.set s.fill.toNat b s.fill.isLt
  { s with
    buf := buf
    lenOvf := s.lenOvf || lenWraps s.len
    len := s.len + 8
    acc := if s.fill = 63 then compress s.acc buf else s.acc
    fill := if s.fill = 63 then 0 else s.fill + 1 }

/-- The four bytes of a word, DATA[7:0] first (40 R107). -/
def State.absorbWord (data : Word) (s : State) : State :=
  (((s.absorbByte (byteOf data 0)).absorbByte (byteOf data 1)).absorbByte (byteOf data 2)).absorbByte (byteOf data 3)

/-- BUF[FILL] <- 0x80 (40 R108). -/
def State.markedBuf (s : State) : Block := s.buf.set s.fill.toNat 0x80 s.fill.isLt

/-- The padding of FINAL when the length fits the block, FILL <= 55: one compression (40 R108, R109). -/
def State.finishOne (s : State) : State :=
  let last := putLength (zeroRange s.markedBuf (s.fill.toNat + 1) 56) s.len
  { s with buf := last, acc := compress s.acc last, fill := 0, phase := .done }

/-- The padding of FINAL when the length does not fit, FILL in 56..63: two compressions (40 R108, R109). -/
def State.finishTwo (s : State) : State :=
  let first := zeroRange s.markedBuf (s.fill.toNat + 1) 64
  let last := putLength (zeroRange first 0 56) s.len
  { s with buf := last, acc := compress (compress s.acc first) last, fill := 0, phase := .done }

/-- What FINAL does to the state (40 R108). -/
def State.finish (s : State) : State := if s.fill.toNat ≤ 55 then s.finishOne else s.finishTwo

end Sys2Proof.Machine
end

