-- ==== Sys2Proof/Machine/Compressor.lean ====
section
/-! DEFINITION. The raw compressor commands (41_block_compressor.md section 3). -/

namespace Sys2Proof.Machine

/-- LOADA (41 R141): ACC[k] <- DATA. -/
def execLoada (idx : Byte) (data : Word) (s : State) : Host.Outcome State Fault Refusal :=
  s.checked (.loada idx data) fun s => State.complete 0 { s with acc := s.acc.set (accIndex idx).val data }

/-- LOADX (41 R142): four bytes of BUF. -/
def execLoadx (idx : Byte) (data : Word) (s : State) : Host.Outcome State Fault Refusal :=
  s.checked (.loadx idx data) fun s => State.complete 0 { s with buf := putWord s.buf (wordIndex idx) data }

/-- COMPRESS (41 R143): ACC <- Compress(ACC, BUF). -/
def execCompress (s : State) : Host.Outcome State Fault Refusal :=
  s.checked .compress fun s => State.complete 0 { s with acc := compress s.acc s.buf }

/-- RDX (41 R144). -/
def execRdx (idx : Byte) (s : State) : Host.Outcome State Fault Refusal :=
  s.checked (.rdx idx) fun s => s.complete (wordView s.buf (wordIndex idx))

end Sys2Proof.Machine
end

