-- ==== Sys2Proof/Machine/Control.lean ====
section
/-! DEFINITION. The control and status commands (43_control.md). -/

namespace Sys2Proof.Machine

/-- NOP (43 R190). -/
def execNop (s : State) : Host.Outcome State Fault Refusal :=
  s.checked .nop (State.complete 0)

/-- IDLE (43 R191): PHASE <- IDLE. -/
def execIdle (s : State) : Host.Outcome State Fault Refusal :=
  s.checked .idle fun s => State.complete 0 { s with phase := .idle }

/-- RDSTAT (43 R192). -/
def execRdstat (s : State) : Host.Outcome State Fault Refusal :=
  s.checked .rdstat fun s => s.complete s.status

/-- RDLEN (43 R193). -/
def execRdlen (idx : Byte) (s : State) : Host.Outcome State Fault Refusal :=
  s.checked (.rdlen idx) fun s => s.complete (halfOf s.len (lenHalf idx))

end Sys2Proof.Machine
end

