-- ==== Sys2Proof/Machine/Padding.lean ====
section
/-! DEFINITION. The message commands of the padding encoder (40_padding_encoder.md section 2). -/

namespace Sys2Proof.Machine

/-- INIT (40 R104). -/
def execInit (s : State) : Host.Outcome State Fault Refusal :=
  s.checked .init fun s => s.open.complete 0

/-- ABSORB (40 R106). -/
def execAbsorb (b : Byte) (s : State) : Host.Outcome State Fault Refusal :=
  s.checked (.absorb b) fun s => (s.absorbByte b).complete 0

/-- ABSORBW (40 R107). -/
def execAbsorbw (data : Word) (s : State) : Host.Outcome State Fault Refusal :=
  s.checked (.absorbw data) fun s => (s.absorbWord data).complete 0

/-- FINAL (40 R108). -/
def execFinal (s : State) : Host.Outcome State Fault Refusal :=
  s.checked .final fun s => s.finish.complete 0

end Sys2Proof.Machine
end

