-- ==== Sys2Proof/Machine/Serializer.lean ====
section
/-! DEFINITION. The digest read commands (42_digest_serializer.md). -/

namespace Sys2Proof.Machine

/-- RDDIG (42 R173). -/
def execRddig (idx : Byte) (s : State) : Host.Outcome State Fault Refusal :=
  s.checked (.rddig idx) fun s => s.complete (zext32 (serialize s.acc)[digestIndex idx])

/-- RDHEX (42 R174). -/
def execRdhex (idx : Byte) (s : State) : Host.Outcome State Fault Refusal :=
  s.checked (.rdhex idx) fun s => s.complete (zext32 (hex (serialize s.acc))[hexIndex idx])

/-- RDACC (42 R175). -/
def execRdacc (idx : Byte) (s : State) : Host.Outcome State Fault Refusal :=
  s.checked (.rdacc idx) fun s => s.complete s.acc[accIndex idx]

end Sys2Proof.Machine
end

