-- ==== Sys2Proof/Machine/Dispatch.lean ====
section
/-! DEFINITION. The dispatch: one arm per command of the opcode table (30_encoding.md R75). -/

namespace Sys2Proof.Machine

def exec (i : Instr) (s : State) : Host.Outcome State Fault Refusal :=
  match i with
  | .nop => Sys2Proof.Machine.execNop s
  | .init => Sys2Proof.Machine.execInit s
  | .absorb b => Sys2Proof.Machine.execAbsorb b s
  | .absorbw data => Sys2Proof.Machine.execAbsorbw data s
  | .final => Sys2Proof.Machine.execFinal s
  | .rddig idx => Sys2Proof.Machine.execRddig idx s
  | .rdhex idx => Sys2Proof.Machine.execRdhex idx s
  | .rdacc idx => Sys2Proof.Machine.execRdacc idx s
  | .rdstat => Sys2Proof.Machine.execRdstat s
  | .rdlen idx => Sys2Proof.Machine.execRdlen idx s
  | .idle => Sys2Proof.Machine.execIdle s
  | .loada idx data => Sys2Proof.Machine.execLoada idx data s
  | .loadx idx data => Sys2Proof.Machine.execLoadx idx data s
  | .compress => Sys2Proof.Machine.execCompress s
  | .rdx idx => Sys2Proof.Machine.execRdx idx s

end Sys2Proof.Machine
end

