-- ==== Sys2Proof/Machine/Port.lean ====
section
/-! DEFINITION. The command port at one sample (70_reset_and_hazards.md sections 1 and 2), untimed: a command accepted at
a sample is executed whole, and its response is valid from the next sample on (log 2). -/

namespace Sys2Proof.Machine

/-- cmd_ready: the block can accept a command, with no response outstanding (70 R242) and not in reset (R243). -/
def State.cmdReady (rstN : Bool) (s : State) : Bool := rstN && s.rsp.isNone

/-- rsp_valid: the block presents a response (70 R240). -/
def State.rspValid (s : State) : Bool := s.rsp.isSome

/-- rst_n = 0: every state element at its reset value, no response (70 R243, R244). What the host does later stands;
a word it was presenting is forgotten (log 4). -/
def State.resetBlock (s : State) : State := { State.reset with host := s.host }

/-- One accepted command word: decoded and executed, or failed with the decoder's cause (30_encoding.md R76). -/
def accept (w : Word64) (s : State) : Host.Outcome State Fault Refusal :=
  match decode w with
  | .ok i => exec i s
  | .error e => .next (s.raise (causeOf e))

/-- The host presents another word, or none, while the one it presented has not transferred (70 R247; log 3). -/
def brokeHold (p : PortSample) (s : State) : Bool := s.held.isSome && s.held != p.cmd

/-- The block holds a response: it accepts no command, and the response transfers if the host is ready (70 R241, R242). -/
def State.awaitTaken (p : PortSample) (s : State) : State :=
  { s with rsp := if p.rspReady then none else s.rsp, held := p.cmd }

/-- One port sample with rst_n = 1 and the host keeping its duty. -/
def transact (p : PortSample) (s : State) : Host.Outcome State Fault Refusal :=
  match s.rsp, p.cmd with
  | some _, _ => .next (s.awaitTaken p)
  | none, none => .next { s with held := none }
  | none, some w => accept w { s with held := none }

/-- One port sample: reset first (70 R243), then the host's duty (R247), then the transfers (R241). -/
def sample (p : PortSample) (s : State) : Host.Outcome State Fault Refusal :=
  if p.rstN = false then .next s.resetBlock
  else if brokeHold p s then .refused .hostBrokeHold
  else transact p s

/-- The sample at which the host presents a command word and takes no response. -/
def presenting (w : Word64) : PortSample := { rstN := true, cmd := some w, rspReady := false }

/-- The sample at which the host presents no command and takes the response. -/
def taking : PortSample := { rstN := true, cmd := none, rspReady := true }

/-- A host that sends these words in order and takes each response before the next word (70 R247). -/
def hostSends (ws : List Word64) : List PortSample := ws.flatMap fun w => [presenting w, taking]

end Sys2Proof.Machine
end

