-- ==== Sys2Proof/Machine/Step.lean ====
section
/-! DEFINITION. One step of the machine: the next port sample (70_reset_and_hazards.md R240 to R244; log 1). -/

namespace Sys2Proof.Machine

/-- The oldest port sample is consumed and acted on. With none to come the host does nothing, and the block waits
unchanged (70 R247: the host may "wait any time"). -/
def step (s : State) : Host.Outcome State Fault Refusal :=
  match s.host with
  | [] => .next s
  | p :: rest => sample p { s with host := rest }

/-- The state in which the very next step accepts the word w: presented first, with no response outstanding and no other
word presented (log 6). -/
def State.withFetchWord (s : State) (nbits w : Nat) : State :=
  { s with
    rsp := none, held := none
    host := presenting (BitVec.ofNat 64 (w % 2 ^ nbits)) :: s.host }

end Sys2Proof.Machine
end

