-- ==== Sys2Proof/Machine/Assembler.lean ====
section
/-! DEFINITION. The assembler's side of 30_encoding.md section 5: the text of a command (R80) and the expansions of the
pseudo-instructions (R81). "They exist in the assembler only; the block sees the expansion": the step does not use them. -/

namespace Sys2Proof.Machine

/-- The low n hexadecimal digits of a number, most significant first, lowercase (30 R80). -/
def hexDigits (n v : Nat) : String :=
  String.ofList ((List.range n).reverse.map fun k => Char.ofNat (hexChar (BitVec.ofNat 4 (v / 16 ^ k))).toNat)

/-- `0x` and eight digits, as the data words of 30 R82 are written. -/
def dataText (data : Word) : String := "0x" ++ hexDigits 8 data.toNat

/-- The assembler text of a command: MNEMONIC, MNEMONIC idx, MNEMONIC data, or MNEMONIC idx, data (30 R80). -/
def asmText : Instr → String
  | .nop => "NOP"
  | .init => "INIT"
  | .absorb b => "ABSORB 0x" ++ hexDigits 2 b.toNat
  | .absorbw data => "ABSORBW " ++ dataText data
  | .final => "FINAL"
  | .rddig idx => "RDDIG " ++ Nat.repr idx.toNat
  | .rdhex idx => "RDHEX " ++ Nat.repr idx.toNat
  | .rdacc idx => "RDACC " ++ Nat.repr idx.toNat
  | .rdstat => "RDSTAT"
  | .rdlen idx => "RDLEN " ++ Nat.repr idx.toNat
  | .idle => "IDLE"
  | .loada idx data => "LOADA " ++ Nat.repr idx.toNat ++ ", " ++ dataText data
  | .loadx idx data => "LOADX " ++ Nat.repr idx.toNat ++ ", " ++ dataText data
  | .compress => "COMPRESS"
  | .rdx idx => "RDX " ++ Nat.repr idx.toNat

/-- A listing line: the word as 16 hexadecimal digits, two spaces, the text (30 R80). -/
def listingLine (i : Instr) : String := hexDigits 16 (encode i).toNat ++ "  " ++ asmText i

/-- The assembler's word for a command: none for an operand that does not fit its field, which it refuses "rather than
encode a failing command" (30 R80). -/
def assemble (i : Instr) : Option Word64 := if i.wellFormed then some (encode i) else none

/-- ABSORBS: four bytes at a time by ABSORBW, the rest by ABSORB (30 R81). -/
def absorbsCommands : List Byte → List Instr
  | b0 :: b1 :: b2 :: b3 :: rest => .absorbw (le32 b0 b1 b2 b3) :: absorbsCommands rest
  | rest => rest.map .absorb

/-- HASH: INIT, ABSORBS, FINAL (30 R81). -/
def hashCommands (text : List Byte) : List Instr := .init :: (absorbsCommands text ++ [.final])

/-- DIGEST: RDDIG 0 to RDDIG 15 (30 R81). -/
def digestCommands : List Instr := (List.range 16).map fun n => .rddig (BitVec.ofNat 8 n)

/-- HEXOUT: RDHEX 0 to RDHEX 31 (30 R81). -/
def hexoutCommands : List Instr := (List.range 32).map fun n => .rdhex (BitVec.ofNat 8 n)

/-- RDACC4: RDACC 0 to RDACC 3 (30 R81). -/
def rdacc4Commands : List Instr := (List.range 4).map fun n => .rdacc (BitVec.ofNat 8 n)

/-- LOADIV: LOADA k, IV[k] for k = 0 to 3 (30 R81). -/
def loadivCommands : List Instr := (List.finRange 4).map fun k => .loada (BitVec.ofNat 8 k.val) iv[k]

/-- LOADBLK: LOADX k, w_k for k = 0 to 15 (30 R81). -/
def loadblkCommands (ws : Vector Word 16) : List Instr :=
  (List.finRange 16).map fun k => .loadx (BitVec.ofNat 8 k.val) ws[k]

end Sys2Proof.Machine
end

