-- ==== Sys2Proof/Config.lean ====
section
/-! DEFINITION. The OPEN parameters of 00_scope.md R6: constants without a body, so that no proof can see a value.
No rule of the model depends on one of them; the fixed parameters of R6 stand where they are used. -/

namespace Sys2Proof.Config

/-- T_SIMPLE: cycles from acceptance to response of a simple or failed command, finite and at least 1
(70_reset_and_hazards.md R248; DESIGN CHOICE to keep it open, log 8, safe). -/
opaque tSimple : ℕ+

/-- T_ABSORB: the same for an ABSORB or ABSORBW that completes no block (70 R248; log 8). -/
opaque tAbsorb : ℕ+

/-- T_COMPRESS: the same for COMPRESS and for an ABSORB or ABSORBW that completes a block (70 R248; log 8). -/
opaque tCompress : ℕ+

/-- T_FINAL: the same for FINAL (70 R248; log 8). -/
opaque tFinal : ℕ+

/-- INSTANCES: how many independent copies of the block a platform places (00 R6, 60_exceptions.md R225; log 9). -/
opaque instances : Nat

end Sys2Proof.Config
end

