-- ==== Sys2Proof/Machine/Timing.lean ====
section
/-! DEFINITION. The latency classes of 70_reset_and_hazards.md R248. The untimed step does not use them (log 8). -/

namespace Sys2Proof.Machine

/-- The command classes of 70 R248. -/
inductive LatencyClass where
  | simple
  | absorb
  | compress
  | final
  deriving DecidableEq, Repr

/-- Absorbing n bytes completes a block: the buffer's 64th byte is among them (40_padding_encoder.md R105). -/
def completesBlock (n : Nat) (s : State) : Bool := decide (64 ≤ s.fill.toNat + n)

/-- The class of a decoded command accepted in a state; one that fails its phase check is simple (70 R248). -/
def latencyClass (i : Instr) (s : State) : LatencyClass :=
  if legalIn i s.phase then
    match i with
    | .nop => .simple
    | .init => .simple
    | .absorb _ => if completesBlock 1 s then .compress else .absorb
    | .absorbw _ => if completesBlock 4 s then .compress else .absorb
    | .final => .final
    | .rddig _ => .simple
    | .rdhex _ => .simple
    | .rdacc _ => .simple
    | .rdstat => .simple
    | .rdlen _ => .simple
    | .idle => .simple
    | .loada _ _ => .simple
    | .loadx _ _ => .simple
    | .compress => .compress
    | .rdx _ => .simple
  else .simple

/-- The latency of a class in cycles: OPEN, finite and at least 1 (70 R248). -/
def latency : LatencyClass → ℕ+
  | .simple => Config.tSimple
  | .absorb => Config.tAbsorb
  | .compress => Config.tCompress
  | .final => Config.tFinal

/-- The class of a command word accepted in a state: that of its command, and simple for a word that fails to decode ("any
failed command", 70 R248). -/
def wordClass (w : Word64) (s : State) : LatencyClass :=
  match decode w with
  | .ok i => latencyClass i s
  | .error _ => .simple

/-- The cycles from the acceptance of a command word to the cycle its response becomes valid (70 R248). -/
def wordLatency (w : Word64) (s : State) : ℕ+ := latency (wordClass w s)

end Sys2Proof.Machine
end

