-- ==== Sys2Proof/Safety.lean ====
section
/-! DEFINITION. The terms the claims are stated in: runs of several commands, the invariant of the state (10_state.md
R35), and the message of a computation with the invariant it gives (40_padding_encoder.md R110). -/

namespace Sys2Proof.Machine

/-- Decoded commands executed one after another, stopping where one stops. -/
def execAll : List Instr → State → Host.Outcome State Fault Refusal
  | [], s => .next s
  | i :: is, s =>
    match exec i s with
    | .next t => execAll is t
    | .fault r => .fault r
    | .refused r => .refused r

/-- Command words accepted one after another, in order, each complete before the next (20_memory.md R59). -/
def acceptAll : List Word64 → State → Host.Outcome State Fault Refusal
  | [], s => .next s
  | w :: ws, s =>
    match accept w s with
    | .next t => acceptAll ws t
    | .fault r => .fault r
    | .refused r => .refused r

/-- What 30_encoding.md R76 does with every word of one opcode: RSVD_NONZERO, then BAD_INDEX, then the command. `mask` is
datamask(OP); `limit` is the count of legal indices, none for a command without index (R73). -/
def WordsOf (op : Byte) (mask : Word) (limit : Option Nat) (cmd : Byte → Word → Instr) : Prop :=
  ∀ (w : Word64) (s : State), w.extractLsb' 56 8 = op →
    let idx := w.extractLsb' 48 8
    let rsvd := w.extractLsb' 32 16
    let data := w.extractLsb' 0 32
    (rsvd ≠ 0 ∨ data &&& ~~~mask ≠ 0 ∨ (limit = none ∧ idx ≠ 0) → accept w s = .next (s.raise .rsvdNonzero)) ∧
    (∀ n, rsvd = 0 → data &&& ~~~mask = 0 → limit = some n → n ≤ idx.toNat →
      accept w s = .next (s.raise .badIndex)) ∧
    (rsvd = 0 → data &&& ~~~mask = 0 → (limit = none → idx = 0) → (∀ n, limit = some n → idx.toNat < n) →
      accept w s = exec (cmd idx data) s)

/-- The invariant of the state between commands: 10_state.md R35, and what R27, R24 and R26 imply about LEN, FILL and
PHASE (whole bytes; FILL is the message length modulo 64 while a message is open; nothing is left in the buffer after
FINAL), and that a failure response at the port is the failure recorded in CAUSE (60_exceptions.md R217). -/
structure State.Inv (s : State) : Prop where
  errCause : s.err = false ↔ s.cause = .none
  wholeBytes : s.len.toNat % 8 = 0
  openFill : s.phase = .absorb → s.len.toNat % 512 = 8 * s.fill.toNat
  doneFill : s.phase = .done → s.fill = 0
  failedResponse : ∀ d, s.rsp = some { err := true, data := d } → s.err = true ∧ d = zext32 s.cause.code
  statusPhase : (s.status.extractLsb' 0 2) ≠ 3
  statusCause : (s.status.extractLsb' 4 4).toNat ≤ 4
  statusReserved : s.status.extractLsb' 14 18 = 0

/-- The bytes a command word contributes to the open message: those of an ABSORB or ABSORBW; a word that fails to decode
contributes none (40 R110). -/
def carriedBy (w : Word64) : List Byte :=
  match decode w with
  | .ok (.absorb b) => [b]
  | .ok (.absorbw data) => bytesLe32 data
  | _ => []

/-- The word neither opens, finishes nor abandons a message: it is not INIT, FINAL or IDLE (40 R110, R112). -/
def keepsOpen (w : Word64) : Prop := decode w ≠ .ok .init ∧ decode w ≠ .ok .final ∧ decode w ≠ .ok .idle

/-- The complete 64-byte groups of a message, M[64n .. 64n + 63] for n < floor(L / 64) (40 R110). -/
def fullBlocks (m : List Byte) : List Block := (List.range (m.length / 64)).map (blockAt m)

/-- The relation of 40 R110 between the message absorbed so far and the state in phase ABSORB. -/
structure MessageInv (m : List Byte) (s : State) : Prop where
  phase : s.phase = .absorb
  fill : s.fill.toNat = m.length % 64
  len : s.len = BitVec.ofNat 64 (8 * m.length)
  lenOvf : s.lenOvf = true ↔ 2 ^ 64 ≤ 8 * m.length
  buf : ∀ j : Fin 64, j.val < s.fill.toNat → s.buf[j] = m.getD (64 * (m.length / 64) + j.val) 0
  acc : s.acc = (fullBlocks m).foldl compress iv

end Sys2Proof.Machine
end

