-- ==== Sys2Proof/Certificates/Slice0/Obligations.lean ====
section
/-! DEFINITION. The statements for the provers. Each docstring names the rule of spec/ it formalises, or says what is the
model's own. An index k of an indexed command is written BitVec.ofNat 8 k, the IDX field that holds it. -/

open Sys2Proof Sys2Proof.Machine

/-! ## Reset (10_state.md R34, 70_reset_and_hazards.md R243, R244) -/

/-- R34: the reset value of every piece of state. -/
def Obligations.ResetValues : Prop :=
  State.reset.acc = #v[0x67452301, 0xefcdab89, 0x98badcfe, 0x10325476] ∧
  (∀ j : Fin 64, State.reset.buf[j] = 0x00) ∧
  State.reset.fill = 0 ∧ State.reset.len = 0 ∧ State.reset.phase = .idle ∧ State.reset.err = false ∧
  State.reset.lenOvf = false ∧ State.reset.cause = .none ∧ State.reset.status = 0x00000000

/-- R243, R244: at a sample with rst_n = 0, whatever the state before (a command in the block or not), the block takes its
reset values, holds no response and accepts nothing. That a word the host was presenting is forgotten is the model's
(log 4), and so is the list of samples to come (log 1). -/
def Obligations.ResetSampleGivesTheResetState : Prop :=
  ∀ (s : State) (p : PortSample) (rest : List PortSample), s.host = p :: rest → p.rstN = false →
    step s = .next { State.reset with host := rest } ∧
    State.cmdReady p.rstN s = false ∧ State.rspValid { State.reset with host := rest } = false

/-! ## Encoding (30_encoding.md) -/

/-- The fifteen words of the table in R82, each the command its line names. -/
def Obligations.SpecWordsDecode : Prop :=
  decode 0x0000000000000000 = .ok .nop ∧
  decode 0x0100000000000000 = .ok .init ∧
  decode 0x0200000000000061 = .ok (.absorb 0x61) ∧
  decode 0x0300000064636261 = .ok (.absorbw 0x64636261) ∧
  decode 0x0400000000000000 = .ok .final ∧
  decode 0x050f000000000000 = .ok (.rddig 15) ∧
  decode 0x061f000000000000 = .ok (.rdhex 31) ∧
  decode 0x0703000000000000 = .ok (.rdacc 3) ∧
  decode 0x0800000000000000 = .ok .rdstat ∧
  decode 0x0901000000000000 = .ok (.rdlen 1) ∧
  decode 0x0a00000000000000 = .ok .idle ∧
  decode 0x0b02000098badcfe = .ok (.loada 2 0x98badcfe) ∧
  decode 0x0c0e000000000018 = .ok (.loadx 14 0x00000018) ∧
  decode 0x0d00000000000000 = .ok .compress ∧
  decode 0x0e00000000000000 = .ok (.rdx 0)

/-- Every well-formed command, with every operand at every value, is read back from its word; and a command whose index
is out of range has a word that the decoder rejects with BAD_INDEX (R73). -/
def Obligations.DecodeReadsBackEveryCommand : Prop :=
  ∀ i : Instr, (i.wellFormed = true → decode (encode i) = .ok i) ∧
    (i.wellFormed = false → decode (encode i) = .error .badIndex)

/-- A word that decodes is the word of the command it decodes to, and that command is well formed: each command has
exactly one word. -/
def Obligations.OneWordPerCommand : Prop :=
  ∀ (w : Word64) (i : Instr), decode w = .ok i → i.wellFormed = true ∧ encode i = w

/-- R212, R213, R214: which words raise ILLEGAL_OP, RSVD_NONZERO and BAD_INDEX (an earlier cause wins), and that raising
one is the failure with its code. -/
def Obligations.RejectedWords : Prop :=
  ∀ (w : Word64) (s : State),
    let op := (w.extractLsb' 56 8).toNat
    let idx := (w.extractLsb' 48 8).toNat
    let rsvd := (w.extractLsb' 32 16).toNat
    let data := (w.extractLsb' 0 32).toNat
    let illegal := 0x0f ≤ op
    let reserved := rsvd ≠ 0 ∨ (op ∈ [0x00, 0x01, 0x02, 0x03, 0x04, 0x08, 0x0a, 0x0d] ∧ idx ≠ 0) ∨
      (op ∈ [0x00, 0x01, 0x04, 0x05, 0x06, 0x07, 0x08, 0x09, 0x0a, 0x0d, 0x0e] ∧ data ≠ 0) ∨
      (op = 0x02 ∧ 2 ^ 8 ≤ data)
    let outOfRange := (op = 0x05 ∧ 16 ≤ idx) ∨ (op = 0x06 ∧ 32 ≤ idx) ∨ (op = 0x07 ∧ 4 ≤ idx) ∨
      (op = 0x09 ∧ 2 ≤ idx) ∨ (op = 0x0b ∧ 4 ≤ idx) ∨ (op = 0x0c ∧ 16 ≤ idx) ∨ (op = 0x0e ∧ 16 ≤ idx)
    (decode w = .error .illegalOp ↔ illegal) ∧
    (decode w = .error .rsvdNonzero ↔ ¬illegal ∧ reserved) ∧
    (decode w = .error .badIndex ↔ ¬illegal ∧ ¬reserved ∧ outOfRange) ∧
    (decode w = .error .illegalOp →
      accept w s = .next { s with err := true, cause := .illegalOp, rsp := some { err := true, data := 1 } }) ∧
    (decode w = .error .rsvdNonzero →
      accept w s = .next { s with err := true, cause := .rsvdNonzero, rsp := some { err := true, data := 2 } }) ∧
    (decode w = .error .badIndex →
      accept w s = .next { s with err := true, cause := .badIndex, rsp := some { err := true, data := 3 } })

/-! ## Failures and whole-machine rules -/

/-- R215: which well-formed commands raise BAD_PHASE in which phases, and that raising it is the failure with code 4 and
no other effect; every other well-formed command completes without error. An ill-formed command is BAD_INDEX, by
`RejectedWords` and `DecodeReadsBackEveryCommand`. -/
def Obligations.BadPhaseExactlyWhereTheTableSaysNo : Prop :=
  ∀ (i : Instr) (s : State), i.wellFormed = true →
    let no :=
      (((∃ b, i = .absorb b) ∨ (∃ d, i = .absorbw d) ∨ i = .final) ∧ s.phase ≠ .absorb) ∨
      (((∃ k, i = .rddig k) ∨ (∃ k, i = .rdhex k)) ∧ s.phase ≠ .done) ∨
      (((∃ k d, i = .loada k d) ∨ (∃ k d, i = .loadx k d) ∨ i = .compress) ∧ s.phase ≠ .idle)
    (no → exec i s = .next { s with err := true, cause := .badPhase, rsp := some { err := true, data := 4 } }) ∧
    (¬no → ∃ t d, exec i s = .next t ∧ t.rsp = some { err := false, data := d })

/-- R217: a failed command has exactly one effect: ERR is 1, CAUSE is its code, the response is (1, code). -/
def Obligations.FailureChangesOnlyErrAndCause : Prop :=
  ∀ (w : Word64) (s t : State) (d : Word), accept w s = .next t → t.rsp = some { err := true, data := d } →
    ∃ c : Cause, c ≠ .none ∧ d = (c.code).setWidth 32 ∧
      t = { s with err := true, cause := c, rsp := some { err := true, data := (c.code).setWidth 32 } }

/-- Every 64-bit word, in every state, is answered: the block goes on with exactly one response (30 R71, R77; 60 R210).
That the held word and the samples to come are untouched is about the model's own fields (log 3, log 1). -/
def Obligations.EveryWordIsAnswered : Prop :=
  ∀ (w : Word64) (s : State), ∃ (t : State) (r : Response),
    accept w s = .next t ∧ t.rsp = some r ∧ t.held = s.held ∧ t.host = s.host ∧
    (r.err = true ↔ (∃ e, decode w = .error e) ∨ ∃ i, decode w = .ok i ∧ legalIn i s.phase = false)

/-- R25, R218: ERR is set by every failed command, and only INIT and reset clear ERR and CAUSE; a command that completes
leaves both; a later failure overwrites CAUSE and leaves ERR 1. -/
def Obligations.OnlyInitAndResetClearErr : Prop :=
  (∀ (w : Word64) (s t : State), accept w s = .next t →
    (decode w = .ok .init → t.err = false ∧ t.cause = .none) ∧
    (∀ d, t.rsp = some { err := true, data := d } → t.err = true ∧ t.cause ≠ .none ∧ d = (t.cause.code).setWidth 32) ∧
    (decode w ≠ .ok .init → ∀ d, t.rsp = some { err := false, data := d } → t.err = s.err ∧ t.cause = s.cause)) ∧
  (∀ s : State, s.resetBlock.err = false ∧ s.resetBlock.cause = .none)

/-- R26: the values of PHASE and its transitions. -/
def Obligations.PhaseTransitions : Prop :=
  (Phase.idle.code = 0 ∧ Phase.absorb.code = 1 ∧ Phase.done.code = 2 ∧ ∀ p : Phase, p.code ≠ 3) ∧
  (∀ s : State, s.resetBlock.phase = .idle) ∧
  ∀ (w : Word64) (s t : State), accept w s = .next t →
    (decode w = .ok .init → t.phase = .absorb) ∧
    (decode w = .ok .final → s.phase = .absorb → t.phase = .done) ∧
    (decode w = .ok .final → s.phase ≠ .absorb → t.phase = s.phase) ∧
    (decode w = .ok .idle → t.phase = .idle) ∧
    (decode w ≠ .ok .init → decode w ≠ .ok .final → decode w ≠ .ok .idle → t.phase = s.phase)

/-- The write column of the table in R22: each state element is changed by the commands named there and by no other
command word, decodable or not. -/
def Obligations.StateIsWrittenOnlyByItsCommands : Prop :=
  ∀ (w : Word64) (s t : State), accept w s = .next t →
    let is (p : Instr → Prop) := ∃ i, decode w = .ok i ∧ p i
    let message := is fun i => i = .init ∨ (∃ b, i = .absorb b) ∨ (∃ d, i = .absorbw d)
    (t.acc ≠ s.acc → message ∨ is fun i => i = .final ∨ (∃ k d, i = .loada k d) ∨ i = .compress) ∧
    (t.buf ≠ s.buf → message ∨ is fun i => i = .final ∨ (∃ k d, i = .loadx k d)) ∧
    (t.fill ≠ s.fill → message ∨ is fun i => i = .final) ∧
    (t.len ≠ s.len → message) ∧
    (t.phase ≠ s.phase → is fun i => i = .init ∨ i = .final ∨ i = .idle) ∧
    (t.lenOvf ≠ s.lenOvf → message)

/-- R58 (20_memory.md): the read commands, NOP, INIT, IDLE, LOADA and LOADX are idempotent: the same command again gives the same state and
the same response. -/
def Obligations.RepeatedCommandsAreIdempotent : Prop :=
  ∀ (i : Instr) (s t : State),
    (∀ b, i ≠ .absorb b) → (∀ d, i ≠ .absorbw d) → i ≠ .final → i ≠ .compress →
    exec i s = .next t → exec i t = .next t

/-- LEN_OVF never makes a command fail (R220): whether a command fails, and every other state element it leaves, is the
same with the flag set and clear. -/
def Obligations.LenOvfFailsNoCommand : Prop :=
  ∀ (i : Instr) (s t : State) (b : Bool), exec i s = .next t →
    ∃ u, exec i { s with lenOvf := b } = .next u ∧
      u.acc = t.acc ∧ u.buf = t.buf ∧ u.fill = t.fill ∧ u.len = t.len ∧ u.phase = t.phase ∧ u.err = t.err ∧
      u.cause = t.cause ∧ (∀ r, t.rsp = some r → ∃ d, u.rsp = some { err := r.err, data := d }) ∧
      (i ≠ .rdstat → u.rsp = t.rsp)

/-! ## The status register (10_state.md R30) -/

/-- R30: the fields of STATUS. -/
def Obligations.StatusFields : Prop :=
  ∀ s : State,
    s.status.extractLsb' 0 2 = s.phase.code ∧ s.status.extractLsb' 2 1 = BitVec.ofBool s.err ∧
    s.status.extractLsb' 3 1 = BitVec.ofBool s.lenOvf ∧ s.status.extractLsb' 4 4 = s.cause.code ∧
    s.status.extractLsb' 8 6 = s.fill ∧ s.status.extractLsb' 14 18 = 0

/-! ## The commands, one statement each: its words (30 R76), its effect in the phases that admit it, with every state
element it leaves alone, and BAD_PHASE in the others -/

/-- R190. -/
def Obligations.NopDoesNothing : Prop :=
  WordsOf 0x00 0 none (fun _ _ => .nop) ∧
  (∀ w : Word64, decode w = .ok .nop ↔ w = 0x0000000000000000) ∧
  ∀ s : State, exec .nop s = .next { s with rsp := some { err := false, data := 0 } }

/-- R104. -/
def Obligations.InitOpensAMessage : Prop :=
  WordsOf 0x01 0 none (fun _ _ => .init) ∧
  ∀ s : State, ∃ t, exec .init s = .next t ∧
    t = { s with
      acc := #v[0x67452301, 0xefcdab89, 0x98badcfe, 0x10325476], buf := Vector.replicate 64 0x00, fill := 0, len := 0,
      err := false, lenOvf := false, cause := .none, phase := .absorb, rsp := some { err := false, data := 0 } } ∧
    t.status = 0x00000001

/-- R106, with the action absorb_byte of R105. -/
def Obligations.AbsorbAppendsOneByte : Prop :=
  WordsOf 0x02 0x000000ff none (fun _ data => .absorb (data.extractLsb' 0 8)) ∧
  ∀ (b : Byte) (s : State),
    let buf := s.buf.set s.fill.toNat b s.fill.isLt
    (s.phase = .absorb → exec (.absorb b) s = .next { s with
      buf := buf
      lenOvf := if 2 ^ 64 ≤ s.len.toNat + 8 then true else s.lenOvf
      len := BitVec.ofNat 64 ((s.len.toNat + 8) % 2 ^ 64)
      acc := if s.fill = 63 then compress s.acc buf else s.acc
      fill := if s.fill = 63 then 0 else BitVec.ofNat 6 (s.fill.toNat + 1)
      rsp := some { err := false, data := 0 } }) ∧
    (s.phase ≠ .absorb → exec (.absorb b) s = .next (s.raise .badPhase))

/-- R107: absorb_byte (R105) of DATA[7:0], DATA[15:8], DATA[23:16], DATA[31:24] in this order. The last clause, that
the effect is that of four ABSORB commands of those bytes, is the sentence R107 marks as derived from R105 and R106. -/
def Obligations.AbsorbwIsFourAbsorbs : Prop :=
  WordsOf 0x03 0xffffffff none (fun _ data => .absorbw data) ∧
  ∀ (data : Word) (s : State),
    let absorb (b : Byte) (u : State) : State := { u with
      buf := u.buf.set u.fill.toNat b u.fill.isLt
      lenOvf := if 2 ^ 64 ≤ u.len.toNat + 8 then true else u.lenOvf
      len := BitVec.ofNat 64 ((u.len.toNat + 8) % 2 ^ 64)
      acc := if u.fill = 63 then compress u.acc (u.buf.set u.fill.toNat b u.fill.isLt) else u.acc
      fill := if u.fill = 63 then 0 else BitVec.ofNat 6 (u.fill.toNat + 1) }
    (s.phase = .absorb → ∃ t, exec (.absorbw data) s = .next t ∧
      t = { absorb (data.extractLsb' 24 8) (absorb (data.extractLsb' 16 8) (absorb (data.extractLsb' 8 8)
        (absorb (data.extractLsb' 0 8) s))) with rsp := some { err := false, data := 0 } } ∧
      t.len.toNat = (s.len.toNat + 32) % 2 ^ 64 ∧ t.fill.toNat = (s.fill.toNat + 4) % 64 ∧
      t.lenOvf = (s.lenOvf || decide (2 ^ 64 ≤ s.len.toNat + 32)) ∧ (s.fill.toNat < 60 → t.acc = s.acc) ∧
      execAll [.absorb (data.extractLsb' 0 8), .absorb (data.extractLsb' 8 8), .absorb (data.extractLsb' 16 8),
        .absorb (data.extractLsb' 24 8)] s = .next t) ∧
    (s.phase ≠ .absorb → exec (.absorbw data) s = .next (s.raise .badPhase))

/-- R108: the padded block, or two blocks, byte by byte; which compressions are made; what stays. -/
def Obligations.FinalPadsAndCompresses : Prop :=
  WordsOf 0x04 0 none (fun _ _ => .final) ∧
  ∀ s : State,
    let f := s.fill.toNat
    let lenByte (j : Nat) : Byte := s.len.extractLsb' (8 * (j - 56)) 8
    let only : Block := Vector.ofFn fun j =>
      if j.val < f then s.buf[j] else if j.val = f then 0x80 else if j.val < 56 then 0x00 else lenByte j.val
    let first : Block := Vector.ofFn fun j => if j.val < f then s.buf[j] else if j.val = f then 0x80 else 0x00
    let second : Block := Vector.ofFn fun j => if j.val < 56 then 0x00 else lenByte j.val
    (s.phase = .absorb → f ≤ 55 → exec .final s = .next { s with
      buf := only, acc := compress s.acc only, fill := 0, phase := .done, rsp := some { err := false, data := 0 } }) ∧
    (s.phase = .absorb → 56 ≤ f → exec .final s = .next { s with
      buf := second, acc := compress (compress s.acc first) second, fill := 0, phase := .done,
      rsp := some { err := false, data := 0 } }) ∧
    (s.phase ≠ .absorb → exec .final s = .next (s.raise .badPhase))

/-- R173. -/
def Obligations.RddigReadsADigestByte : Prop :=
  WordsOf 0x05 0 (some 16) (fun idx _ => .rddig idx) ∧
  ∀ (n : Fin 16) (s : State),
    (s.phase = .done → exec (.rddig (BitVec.ofNat 8 n.val)) s = .next { s with
      rsp := some { err := false, data := (s.acc[n.val / 4].extractLsb' (8 * (n.val % 4)) 8).setWidth 32 } }) ∧
    (s.phase ≠ .done → exec (.rddig (BitVec.ofNat 8 n.val)) s = .next (s.raise .badPhase))

/-- R174: even m gives the high half of digest byte m div 2, odd m the low half, as a lowercase ASCII character. -/
def Obligations.RdhexReadsAHexCharacter : Prop :=
  WordsOf 0x06 0 (some 32) (fun idx _ => .rdhex idx) ∧
  ∀ (m : Fin 32) (s : State),
    let byte := s.acc[m.val / 8].extractLsb' (8 * (m.val / 2 % 4)) 8
    let half := if m.val % 2 = 0 then byte.toNat / 16 else byte.toNat % 16
    (s.phase = .done → exec (.rdhex (BitVec.ofNat 8 m.val)) s = .next { s with
      rsp := some { err := false, data := BitVec.ofNat 32 (if half ≤ 9 then 0x30 + half else 0x61 + (half - 10)) } }) ∧
    (s.phase ≠ .done → exec (.rdhex (BitVec.ofNat 8 m.val)) s = .next (s.raise .badPhase))

/-- R175. -/
def Obligations.RdaccReadsAWord : Prop :=
  WordsOf 0x07 0 (some 4) (fun idx _ => .rdacc idx) ∧
  ∀ (k : Fin 4) (s : State),
    exec (.rdacc (BitVec.ofNat 8 k.val)) s = .next { s with rsp := some { err := false, data := s.acc[k] } }

/-- R192. -/
def Obligations.RdstatReadsStatus : Prop :=
  WordsOf 0x08 0 none (fun _ _ => .rdstat) ∧
  ∀ s : State, exec .rdstat s = .next { s with
      rsp := some ⟨false, BitVec.ofNat 32 (s.phase.code.toNat ||| (s.err.toNat <<< 2) |||
        (s.lenOvf.toNat <<< 3) ||| (s.cause.code.toNat <<< 4) ||| (s.fill.toNat <<< 8))⟩ }

/-- R193. -/
def Obligations.RdlenReadsHalfOfLen : Prop :=
  WordsOf 0x09 0 (some 2) (fun idx _ => .rdlen idx) ∧
  ∀ (h : Fin 2) (s : State),
    exec (.rdlen (BitVec.ofNat 8 h.val)) s = .next { s with
      rsp := some { err := false, data := BitVec.ofNat 32 (s.len.toNat / 2 ^ (32 * h.val)) } }

/-- R191. -/
def Obligations.IdleLeavesThePhase : Prop :=
  WordsOf 0x0a 0 none (fun _ _ => .idle) ∧
  ∀ s : State, exec .idle s = .next { s with phase := .idle, rsp := some { err := false, data := 0 } }

/-- R141. -/
def Obligations.LoadaWritesOneWord : Prop :=
  WordsOf 0x0b 0xffffffff (some 4) (fun idx data => .loada idx data) ∧
  ∀ (k : Fin 4) (data : Word) (s : State),
    (s.phase = .idle → exec (.loada (BitVec.ofNat 8 k.val) data) s = .next { s with
      acc := Vector.ofFn fun j => if j = k then data else s.acc[j], rsp := some { err := false, data := 0 } }) ∧
    (s.phase ≠ .idle → exec (.loada (BitVec.ofNat 8 k.val) data) s = .next (s.raise .badPhase))

/-- R142. -/
def Obligations.LoadxWritesFourBytes : Prop :=
  WordsOf 0x0c 0xffffffff (some 16) (fun idx data => .loadx idx data) ∧
  ∀ (k : Fin 16) (data : Word) (s : State),
    (s.phase = .idle → exec (.loadx (BitVec.ofNat 8 k.val) data) s = .next { s with
      buf := Vector.ofFn fun j =>
        if j.val / 4 = k.val then data.extractLsb' (8 * (j.val % 4)) 8 else s.buf[j]
      rsp := some { err := false, data := 0 } }) ∧
    (s.phase ≠ .idle → exec (.loadx (BitVec.ofNat 8 k.val) data) s = .next (s.raise .badPhase))

/-- R143. -/
def Obligations.CompressRunsOnce : Prop :=
  WordsOf 0x0d 0 none (fun _ _ => .compress) ∧
  ∀ s : State,
    (s.phase = .idle → exec .compress s = .next { s with
      acc := compress s.acc s.buf, rsp := some { err := false, data := 0 } }) ∧
    (s.phase ≠ .idle → exec .compress s = .next (s.raise .badPhase))

/-- R144. -/
def Obligations.RdxReadsABufferWord : Prop :=
  WordsOf 0x0e 0 (some 16) (fun idx _ => .rdx idx) ∧
  ∀ (k : Fin 16) (s : State),
    exec (.rdx (BitVec.ofNat 8 k.val)) s = .next { s with
      rsp := some ⟨false, le32 s.buf[4 * k.val] s.buf[4 * k.val + 1] s.buf[4 * k.val + 2] s.buf[4 * k.val + 3]⟩ }

/-! ## Byte order, compression, padding, digest -/

/-- R51: the word view of a buffer is little-endian, as a number. -/
def Obligations.WordViewIsLittleEndian : Prop :=
  ∀ (buf : Block) (j : Fin 16),
    (wordView buf j).toNat = buf[4 * j.val].toNat + 2 ^ 8 * buf[4 * j.val + 1].toNat +
      2 ^ 16 * buf[4 * j.val + 2].toNat + 2 ^ 24 * buf[4 * j.val + 3].toNat

/-- R54 (20_memory.md): RDX after LOADX returns the word loaded, and every other word as it was. -/
def Obligations.RdxAfterLoadx : Prop :=
  ∀ (k j : Fin 16) (data : Word) (s t : State), s.phase = .idle →
    exec (.loadx (BitVec.ofNat 8 k.val) data) s = .next t →
    ∃ u, exec (.rdx (BitVec.ofNat 8 j.val)) t = .next u ∧
      u.rsp = some { err := false, data := if j = k then data else wordView s.buf j }

/-- R130, R131, R134, R135, with the formulas of R132 and R133 written out: Compress is 64 rounds from the accumulator,
each round's inputs the previous round's outputs, and the accumulator update. -/
def Obligations.CompressIsSixtyFourRounds : Prop :=
  ∀ (acc : Accumulator) (buf : Block), ∃ a b c d : Nat → Word,
    (a 0 = acc[0] ∧ b 0 = acc[1] ∧ c 0 = acc[2] ∧ d 0 = acc[3]) ∧
    (∀ i : Fin 64,
      let f :=
        if i.val ≤ 15 then (b i &&& c i) ||| (~~~(b i) &&& d i)
        else if i.val ≤ 31 then (d i &&& b i) ||| (~~~(d i) &&& c i)
        else if i.val ≤ 47 then b i ^^^ c i ^^^ d i
        else c i ^^^ (b i ||| ~~~(d i))
      let g :=
        if i.val ≤ 15 then i.val else if i.val ≤ 31 then (5 * i.val + 1) % 16
        else if i.val ≤ 47 then (3 * i.val + 5) % 16 else (7 * i.val) % 16
      ∃ hg : g < 16,
        let x := le32 buf[4 * g] buf[4 * g + 1] buf[4 * g + 2] buf[4 * g + 3]
        let temp := f + a i + tableK[i] + x
        a (i.val + 1) = d i ∧ d (i.val + 1) = c i ∧ c (i.val + 1) = b i ∧
          b (i.val + 1) = b i + ((temp <<< tableS i) ||| (temp >>> (32 - tableS i)))) ∧
    compress acc buf = #v[acc[0] + a 64, acc[1] + b 64, acc[2] + c 64, acc[3] + d 64]

/-- 41 R138 and R136 (marked derived there): the rotation amounts, every one in 4 to 23, and that such a rotation moves
the bits around without losing one. -/
def Obligations.RotationsPermuteBits : Prop :=
  (∀ i : Fin 64, 4 ≤ tableS i ∧ tableS i ≤ 23 ∧
    some (tableS i) = ((if i.val ≤ 15 then [7, 12, 17, 22] else if i.val ≤ 31 then [5, 9, 14, 20]
      else if i.val ≤ 47 then [4, 11, 16, 23] else [6, 10, 15, 21] : List Nat))[i.val % 4]?) ∧
  (∀ (x : Word) (s : Nat), 1 ≤ s → s ≤ 31 → ∀ j : Fin 32,
    (rotl x s).getLsbD ((j.val + s) % 32) = x.getLsbD j.val)

/-- 41 R133 (marked derived there): within each quartile the 16 rounds use each message word exactly once. -/
def Obligations.EachQuartileReadsEveryWordOnce : Prop :=
  ∀ (q : Fin 4) (g : Fin 16), ∃ i : Fin 64, (i.val / 16 = q.val ∧ msgIndex i = g) ∧
    ∀ i' : Fin 64, i'.val / 16 = q.val → msgIndex i' = g → i' = i

/-- R100: the four items of the padding contract. -/
def Obligations.PadContract : Prop :=
  ∀ m : List Byte,
    let p := pad m
    p.take m.length = m ∧ p[m.length]? = some 0x80 ∧
    (∀ j, m.length < j → j + 8 < p.length → p[j]? = some 0x00) ∧
    (p.length - 8) % 64 = 56 ∧ m.length + 9 ≤ p.length ∧ p.length ≤ m.length + 72 ∧
    p.drop (p.length - 8) = (List.range 8).map fun j => (BitVec.ofNat 64 (m.length * 8)).extractLsb' (8 * j) 8

/-- R101 (its last three items are marked derived there): length, block count, first blocks, and the place of the marker,
at offset L mod 64 of block number L / 64, which is the last block or the last but one. -/
def Obligations.PadBlockCount : Prop :=
  ∀ m : List Byte,
    (pad m).length % 64 = 0 ∧ 64 ≤ (pad m).length ∧ (blocks (pad m)).length = (m.length + 8) / 64 + 1 ∧
    (m.length % 64 ≤ 55 → m.length / 64 + 1 = (blocks (pad m)).length) ∧
    (56 ≤ m.length % 64 → m.length / 64 + 2 = (blocks (pad m)).length) ∧
    (∃ b, (blocks (pad m))[m.length / 64]? = some b ∧ b[m.length % 64]'(Nat.mod_lt _ (by decide)) = 0x80) ∧
    (blocks (pad m)).take (m.length / 64) = fullBlocks m

/-- R102: Blocks cuts a byte list of whole blocks into them, in order and without loss. -/
def Obligations.BlocksCutInOrder : Prop :=
  ∀ p : List Byte, p.length % 64 = 0 →
    (blocks p).length = p.length / 64 ∧ ((blocks p).flatMap fun b => b.toList) = p ∧
    ∀ (n : Nat) (j : Fin 64) (b : Block), (blocks p)[n]? = some b → p[64 * n + j.val]? = some b[j]

/-- R53, R170: the digest bytes, in both forms the rule gives. -/
def Obligations.SerializeIsLittleEndian : Prop :=
  ∀ acc : Accumulator,
    (serialize acc).toList = bytesLe32 acc[0] ++ bytesLe32 acc[1] ++ bytesLe32 acc[2] ++ bytesLe32 acc[3] ∧
    ∀ (k j : Fin 4), (serialize acc)[4 * k.val + j.val] = acc[k].extractLsb' (8 * j.val) 8

/-- 42 R171 (the order of the halves is marked derived there): the characters of a digest. -/
def Obligations.HexCharacters : Prop :=
  ∀ (d : Vector Byte 16) (n : Fin 16),
    let char (v : Nat) : Byte := BitVec.ofNat 8 (if v ≤ 9 then 0x30 + v else 0x61 + (v - 10))
    (hex d)[2 * n.val] = char (d[n].toNat / 16) ∧ (hex d)[2 * n.val + 1] = char (d[n].toNat % 16)

/-- The three digests the source states (95_test_vectors.md section 1): "", "hello" and "abc". -/
def Obligations.SourceVectors : Prop :=
  (md5 []).map Vector.toList = some
    [0xd4, 0x1d, 0x8c, 0xd9, 0x8f, 0x00, 0xb2, 0x04, 0xe9, 0x80, 0x09, 0x98, 0xec, 0xf8, 0x42, 0x7e] ∧
  (md5 [0x68, 0x65, 0x6c, 0x6c, 0x6f]).map Vector.toList = some
    [0x5d, 0x41, 0x40, 0x2a, 0xbc, 0x4b, 0x2a, 0x76, 0xb9, 0x71, 0x9d, 0x91, 0x10, 0x17, 0xc5, 0x92] ∧
  (md5 [0x61, 0x62, 0x63]).map Vector.toList = some
    [0x90, 0x01, 0x50, 0x98, 0x3c, 0xd2, 0x4f, 0xb0, 0xd6, 0x96, 0x3f, 0x7d, 0x28, 0xe1, 0x7f, 0x72]

/-! ## Messages (40_padding_encoder.md section 3) -/

/-- R110 (marked derived there): INIT opens the empty message, and every command word that is not INIT, FINAL or IDLE
keeps the relation, for the message with the bytes the word carries appended. -/
def Obligations.MessageIsTracked : Prop :=
  (∀ s t : State, exec .init s = .next t → MessageInv [] t) ∧
  ∀ (m : List Byte) (w : Word64) (s t : State), MessageInv m s → keepsOpen w → accept w s = .next t →
    MessageInv (m ++ carriedBy w) t

/-- R111 (marked derived there): FINAL on a message leaves the accumulator of its padded blocks. -/
def Obligations.FinalGivesTheDigest : Prop :=
  ∀ (m : List Byte) (s : State), MessageInv m s → ∃ t, exec .final s = .next t ∧
    t.phase = .done ∧ t.len = BitVec.ofNat 64 (8 * m.length) ∧ t.acc = (blocks (pad m)).foldl compress iv

/-- R112 (marked derived there): INIT, command words that carry a message (with reads, NOPs and failing words anywhere
between), FINAL: the digest is MD5 of the message when LEN_OVF = 0, and RDDIG and RDHEX return its bytes and characters. -/
def Obligations.DigestOfEveryMessage : Prop :=
  ∀ (ws : List Word64) (s : State), (∀ w ∈ ws, keepsOpen w) →
    let m := ws.flatMap carriedBy
    ∃ t, acceptAll (encode .init :: (ws ++ [encode .final])) s = .next t ∧ t.phase = .done ∧
      (t.lenOvf = false ↔ 8 * m.length < 2 ^ 64) ∧ serialize t.acc = serialize ((blocks (pad m)).foldl compress iv) ∧
      ∀ d, md5 m = some d →
        serialize t.acc = d ∧
        (∀ n : Fin 16, exec (.rddig (BitVec.ofNat 8 n.val)) t = .next { t with
          rsp := some { err := false, data := (d[n]).setWidth 32 } }) ∧
        ∀ n : Fin 32, exec (.rdhex (BitVec.ofNat 8 n.val)) t = .next { t with
          rsp := some { err := false, data := ((hex d)[n]).setWidth 32 } }

/-- Each computation owns fresh state (R104, R63 of 20_memory.md): after INIT nothing of the state before it can be read,
whatever words follow, in any response or state element. -/
def Obligations.InitForgetsThePast : Prop :=
  ∀ (ws : List Word64) (s s' : State), ∃ t t',
    acceptAll (encode .init :: ws) s = .next t ∧ acceptAll (encode .init :: ws) s' = .next t' ∧
      t' = { t with held := s'.held, host := s'.host }

/-- 30 R81 (marked derived there): the expansion of ABSORBS gives the same state as one ABSORB per byte. That the
expansion of HASH leaves the digest of its text rests on 40 R112 (marked derived there) and 42 R172. -/
def Obligations.AbsorbsExpansion : Prop :=
  (∀ (text : List Byte) (s : State), s.phase = .absorb →
    ∃ t, execAll (absorbsCommands text) s = .next t ∧ execAll (text.map .absorb) s = .next t) ∧
  ∀ (text : List Byte) (s : State), ∃ t, execAll (hashCommands text) s = .next t ∧
    ∀ d, md5 text = some d → serialize t.acc = d

/-! ## The invariant (10_state.md R35 and what it rests on) -/

/-- R35 at reset. -/
def Obligations.ResetHasTheInvariant : Prop := State.Inv State.reset

/-- R35 kept by every step from every state that has it. A step is one sample of the model's list (log 1, log 2). -/
def Obligations.StepKeepsTheInvariant : Prop :=
  ∀ s t : State, s.Inv → step s = .next t → t.Inv

/-! ## The port (70_reset_and_hazards.md sections 1, 2 and 4) -/

/-- A command word presented while no response is outstanding is accepted by the very next step: the decoded command is
executed, or the word fails with the decoder's cause; around it the step only consumes the sample. The sample list and
the held word are the model's (log 1, log 3). -/
def Obligations.StepRunsTheDecodedCommand : Prop :=
  ∀ (s : State) (w : Word64) (ready : Bool) (rest : List PortSample),
    s.host = { rstN := true, cmd := some w, rspReady := ready } :: rest → s.rsp = none →
    (s.held = none ∨ s.held = some w) →
    (∀ i, decode w = .ok i → step s = exec i { s with host := rest, held := none }) ∧
    (∀ e, decode w = .error e → step s = .next { s with
      host := rest, held := none, err := true, cause := causeOf e,
      rsp := some { err := true, data := ((causeOf e).code).setWidth 32 } })

/-- R241, R242: while a response is outstanding the block accepts no command and the response is stable until it
transfers; nothing else moves. -/
def Obligations.OutstandingResponseBlocksThePort : Prop :=
  ∀ (s : State) (r : Response) (p : PortSample) (rest : List PortSample),
    s.host = p :: rest → p.rstN = true → s.rsp = some r → (s.held = none ∨ s.held = p.cmd) →
    State.cmdReady true s = false ∧
    step s = .next { s with host := rest, held := p.cmd, rsp := if p.rspReady then none else some r }

/-- R247, second row: a host that never takes the response leaves the block waiting for ever, with its state unchanged,
whether it presents a word or none, and when it first presents one during the wait. The sample list and the held word are
the model's (log 1, log 3). -/
def Obligations.UntakenResponseWaitsForever : Prop :=
  (∀ (n : Nat) (s : State) (r : Response) (cmd : Option Word64) (rest : List PortSample),
    s.rsp = some r → s.held = cmd →
    s.host = List.replicate n { rstN := true, cmd := cmd, rspReady := false } ++ rest →
    Host.Core.run Sys2Proof.core n s = .next { s with host := rest }) ∧
  ∀ (n k : Nat) (s : State) (r : Response) (w : Word64) (rest : List PortSample),
    s.rsp = some r → s.held = none →
    s.host = List.replicate n { rstN := true, cmd := none, rspReady := false } ++
      (List.replicate (k + 1) { rstN := true, cmd := some w, rspReady := false } ++ rest) →
    Host.Core.run Sys2Proof.core (n + (k + 1)) s = .next { s with host := rest, held := some w }

/-- R247, first row, and 93 U3: the step is refused exactly when, at a sample with rst_n = 1, the host changes or withdraws
a word it is presenting; the machine stops on nothing else. The model's own: the sample list (log 1), the held word and that
withdrawing is refused too (log 3), and that a sample with rst_n = 0 forgets the word instead (log 4). -/
def Obligations.OnlyABrokenHoldStops : Prop :=
  ∀ s : State,
    (∀ r, step s = .refused r → r = .hostBrokeHold) ∧ (∀ r, step s ≠ .fault r) ∧
    (step s = .refused .hostBrokeHold ↔
      ∃ p rest w, s.host = p :: rest ∧ p.rstN = true ∧ s.held = some w ∧ p.cmd ≠ some w)

/-- R59, R246 (20_memory.md, 70): a host that sends words in order and takes each response drives the block through them in that
order, each complete before the next. That a word takes two samples, one accepted and one taking its response, is the
model's (log 2), and so is the sample list (log 1); no number of cycles is claimed. -/
def Obligations.HostSendsInOrder : Prop :=
  ∀ (ws : List Word64) (s t : State) (rest : List PortSample),
    s.rsp = none → s.held = none → s.host = hostSends ws ++ rest → acceptAll ws s = .next t →
    Host.Core.run Sys2Proof.core (2 * ws.length) s = .next { t with rsp := none, host := rest }

/-- With no sample to come, or one in which the host presents no command and no response is outstanding, the block waits
unchanged. The empty list is the model's (log 1). -/
def Obligations.QuietPortChangesNothing : Prop :=
  (∀ s : State, s.host = [] → step s = .next s) ∧
  ∀ (s : State) (ready : Bool) (rest : List PortSample),
    s.host = { rstN := true, cmd := none, rspReady := ready } :: rest → s.rsp = none → s.held = none →
    step s = .next { s with host := rest }

/-- 70 R248: the class of every accepted word. A word that fails, at decoding or by its phase, is simple; a legal command
has its row's class, an absorbing one that of a compression exactly when FILL wraps. (The classes of terms whose index no
word encodes rest on log 11.) -/
def Obligations.LatencyClasses : Prop :=
  (∀ (w : Word64) (s t : State) (d : Word), accept w s = .next t → t.rsp = some { err := true, data := d } →
    wordClass w s = .simple) ∧
  (∀ (w : Word64) (i : Instr) (s : State), decode w = .ok i → wordClass w s = latencyClass i s) ∧
  (∀ (i : Instr) (s t : State) (d : Word), exec i s = .next t → t.rsp = some { err := true, data := d } →
    latencyClass i s = .simple) ∧
  (∀ (i : Instr) (s : State), (∀ b, i ≠ .absorb b) → (∀ data, i ≠ .absorbw data) → i ≠ .compress → i ≠ .final →
    latencyClass i s = .simple) ∧
  (∀ s : State, s.phase = .idle → latencyClass .compress s = .compress) ∧
  (∀ s : State, s.phase = .absorb → latencyClass .final s = .final) ∧
  (∀ (data : Word) (s t : State), s.phase = .absorb → exec (.absorbw data) s = .next t →
    (latencyClass (.absorbw data) s = .compress ↔ t.fill.toNat < s.fill.toNat) ∧
    (latencyClass (.absorbw data) s = .absorb ↔ ¬ t.fill.toNat < s.fill.toNat)) ∧
  (∀ (b : Byte) (s t : State), s.phase = .absorb → exec (.absorb b) s = .next t →
    (latencyClass (.absorb b) s = .compress ↔ t.fill.toNat < s.fill.toNat) ∧
    (latencyClass (.absorb b) s = .absorb ↔ ¬ t.fill.toNat < s.fill.toNat))
end

