-- ==== Sys2Proof/Laws/Decode.lean ====
section
/-! SUPPORT. Lemmas of the decoder and the encoder: the fields of a packed word, what each table of the format says about
the others, and what each outcome of the decoder means. -/

namespace Sys2Proof

/-! ## Fields -/

@[simp] theorem opField_packFields (op idx : Byte) (r : BitVec 16) (d : Word) :
    opField (packFields op idx r d) = op := by
  unfold opField packFields
  ext i hi
  simp (disch := omega) [BitVec.getLsbD_of_ge, show ¬ 56 + i < 48 by omega]

@[simp] theorem idxField_packFields (op idx : Byte) (r : BitVec 16) (d : Word) :
    idxField (packFields op idx r d) = idx := by
  unfold idxField packFields
  ext i hi
  simp (disch := omega) [BitVec.getLsbD_of_ge, show 48 + i < 56 by omega]

@[simp] theorem rsvdField_packFields (op idx : Byte) (r : BitVec 16) (d : Word) :
    rsvdField (packFields op idx r d) = r := by
  unfold rsvdField packFields
  ext i hi
  simp (disch := omega) [BitVec.getLsbD_of_ge, show 32 + i < 56 by omega, show 32 + i < 48 by omega]

@[simp] theorem dataField_packFields (op idx : Byte) (r : BitVec 16) (d : Word) :
    dataField (packFields op idx r d) = d := by
  unfold dataField packFields
  ext i hi
  simp (disch := omega) [hi, show i < 56 by omega, show i < 48 by omega]

/-- A word is the packing of its fields: the format of 30 R70 leaves no bit out. -/
theorem packFields_fields (w : Word64) : packFields (opField w) (idxField w) (rsvdField w) (dataField w) = w := by
  unfold packFields opField idxField rsvdField dataField
  ext i hi
  have h : i < 32 ∨ (32 ≤ i ∧ i < 48) ∨ (48 ≤ i ∧ i < 56) ∨ 56 ≤ i := by omega
  rcases h with h | ⟨h, h'⟩ | ⟨h, h'⟩ | h
  · simp (disch := omega) [BitVec.getLsbD_eq_getElem, h, show i < 56 by omega, show i < 48 by omega]
  · simp (disch := omega) [BitVec.getLsbD_eq_getElem, h', show i < 56 by omega, show ¬ i < 32 by omega,
      show 32 + (i - 32) = i by omega]
  · simp (disch := omega) [BitVec.getLsbD_eq_getElem, h', show ¬ i < 48 by omega, show ¬ i < 32 by omega,
      show 48 + (i - 48) = i by omega]
  · simp (disch := omega) [BitVec.getLsbD_eq_getElem, show ¬ i < 56 by omega, show ¬ i < 48 by omega,
      show ¬ i < 32 by omega, show 56 + (i - 56) = i by omega]

/-- The index check of 30 R76 as a comparison: IDX[7:n] is not zero exactly when IDX is 2^n or more. -/
theorem shiftRight_ne_zero_iff (idx : Byte) (n : Nat) : idx >>> n ≠ 0 ↔ 2 ^ n ≤ idx.toNat := by
  rw [ne_eq, ← BitVec.toNat_inj]
  simp [Nat.shiftRight_eq_div_pow, Nat.div_eq_zero_iff]

theorem and_highBits (d : Word) : d &&& 0xffffff00#32 = (d >>> 8) <<< 8 := by
  ext i hi
  interval_cases i <;> simp

/-- The unused-data check of 30 R76 for ABSORB as a comparison. -/
theorem unused_absorb_iff (d : Word) : d &&& ~~~(0x000000ff#32) = 0 ↔ d.toNat < 2 ^ 8 := by
  rw [show ~~~(0x000000ff#32) = 0xffffff00#32 from rfl, and_highBits, ← BitVec.toNat_inj]
  simp [Nat.shiftLeft_eq, Nat.shiftRight_eq_div_pow]
  omega

theorem unused_allBits (d : Word) : d &&& ~~~(0xffffffff#32) = 0 := by simp

theorem unused_noBits (d : Word) : d &&& ~~~(0#32) = d := by
  rw [show ~~~(0#32) = BitVec.allOnes 32 from rfl, BitVec.and_allOnes]

theorem setWidth_lowByte (d : Word) (h : d.toNat < 2 ^ 8) : (d.extractLsb' 0 8).setWidth 32 = d := by
  rw [← BitVec.toNat_inj]
  simp
  omega

theorem lowByte_setWidth (b : Byte) : (b.setWidth 32).extractLsb' 0 8 = b := by
  rw [← BitVec.toNat_inj]
  simp [b.isLt]

/-! ## The tables of the format agree -/

/-- What `instrOf` reads a command from: its opcode, its index operand, and DATA if no unused bit of it is set. -/
theorem instrOf_some {op idx : Byte} {data : Word} {i : Instr} (h : instrOf op idx data = some i) :
    op = opcode i ∧ (idxWidth i ≠ none → idx = idxOperand i) ∧
      (data &&& ~~~ dataMask i = 0 → data = dataOperand i) := by
  have key (n : Byte) (hn : op.toNat = n.toNat) : op = n := BitVec.toNat_inj.mp hn
  unfold instrOf at h
  split at h <;> simp only [Option.some.injEq, reduceCtorEq] at h
  case h_3 hop =>
    subst h
    refine ⟨key _ hop, by simp [idxWidth], fun hd => (setWidth_lowByte data ?_).symm⟩
    exact (unused_absorb_iff data).mp hd
  all_goals
    rename_i hop
    subst h
    refine ⟨key _ hop, by simp [idxWidth, idxOperand], fun hd => ?_⟩
    first | rfl | exact (unused_noBits data).symm.trans hd

/-- `instrOf` finds no command exactly at the opcodes 0x0F to 0xFF (30 R77). -/
theorem instrOf_none_iff (op idx : Byte) (data : Word) : instrOf op idx data = none ↔ 0x0f ≤ op.toNat := by
  unfold instrOf
  split <;> simp only [reduceCtorEq, false_iff, true_iff]
  case h_16 => simp only [imp_false] at *; omega
  all_goals omega

@[simp] theorem instrOf_operands (i : Instr) : instrOf (opcode i) (idxOperand i) (dataOperand i) = some i := by
  cases i <;> first | rfl | simp [instrOf, opcode, dataOperand, lowByte_setWidth]

theorem dataOperand_masked (i : Instr) : dataOperand i &&& ~~~ dataMask i = 0 := by
  cases i with
  | absorb b => exact (unused_absorb_iff _).mpr (by simp only [dataOperand, BitVec.toNat_setWidth]; omega)
  | _ => simp [dataOperand, dataMask]

theorem idxOperand_of_noIndex {i : Instr} (h : idxWidth i = none) : idxOperand i = 0 := by
  cases i <;> first | rfl | simp [idxWidth] at h

/-- Well-formedness is the index check of 30 R76. -/
theorem wellFormed_iff (i : Instr) :
    i.wellFormed = true ↔ ∀ n, idxWidth i = some n → (idxOperand i).toNat < 2 ^ n := by
  cases i <;> simp [Instr.wellFormed, idxWidth, idxOperand]

/-! ## The outcomes of the decoder -/

/-- The index check with the command's own index: it passes exactly for a well-formed command. -/
theorem checkIndex_operand (i : Instr) :
    checkIndex (idxOperand i) i = if i.wellFormed then .ok i else .error .badIndex := by
  unfold checkIndex
  rcases hw : idxWidth i with _ | n
  · simp [idxOperand_of_noIndex hw, (wellFormed_iff i).mpr (by simp [hw])]
  · have := wellFormed_iff i
    simp only [hw, Option.some.injEq, forall_eq'] at this
    simp only [shiftRight_ne_zero_iff]
    by_cases h : i.wellFormed = true
    · rw [if_pos h, if_neg (by have := this.mp h; omega)]
    · rw [if_neg h, if_pos (by have := mt this.mpr h; omega)]

/-- A passed index check gives the command back, and IDX is its index operand. -/
theorem checkIndex_ok {idx : Byte} {i j : Instr} (h : checkIndex idx i = .ok j) :
    j = i ∧ (idxWidth i = none → idx = 0) ∧ ∀ n, idxWidth i = some n → idx.toNat < 2 ^ n := by
  unfold checkIndex at h
  rcases hw : idxWidth i with _ | n <;> simp only [hw] at h <;> split at h
  · simp at h
  · simp_all
  · simp at h
  · rename_i hn
    rw [shiftRight_ne_zero_iff] at hn
    simp_all

/-- The decoder on a word whose fields are given. -/
theorem decode_packFields (op idx : Byte) (r : BitVec 16) (d : Word) :
    decode (packFields op idx r d) =
      match instrOf op idx d with
      | none => .error .illegalOp
      | some i =>
        if r ≠ 0 then .error .rsvdNonzero
        else if d &&& ~~~ dataMask i ≠ 0 then .error .rsvdNonzero
        else checkIndex idx i := by
  rcases h : instrOf op idx d with _ | i <;>
    simp only [decode, opField_packFields, idxField_packFields, rsvdField_packFields, dataField_packFields, h]

/-- The decoder on the words of one opcode, from what the tables say of it: the checks of 30 R76 in their order. -/
theorem decode_of_opcode {w : Word64} {op : Byte} {mask : Word} {cmd : Byte → Word → Instr} (hop : opField w = op)
    (h : ∀ idx data, instrOf op idx data = some (cmd idx data) ∧ dataMask (cmd idx data) = mask) :
    decode w =
      if rsvdField w ≠ 0 then .error .rsvdNonzero
      else if dataField w &&& ~~~ mask ≠ 0 then .error .rsvdNonzero
      else checkIndex (idxField w) (cmd (idxField w) (dataField w)) := by
  unfold decode
  rw [hop, (h _ _).1]
  simp only [(h _ _).2]

end Sys2Proof
end

