-- ==== Sys2Proof/Laws/Operands.lean ====
section
/-! SUPPORT. One lemma per operand form and buffer operation: what it reads or which byte it writes. -/

namespace Sys2Proof.Machine

/-! ## Index operands: the field that holds k is read as k -/

@[simp] theorem digestIndex_ofNat (n : Fin 16) : digestIndex (BitVec.ofNat 8 n.val) = n := by
  ext; simp [digestIndex]

@[simp] theorem hexIndex_ofNat (n : Fin 32) : hexIndex (BitVec.ofNat 8 n.val) = n := by
  ext; simp [hexIndex]

@[simp] theorem accIndex_ofNat (k : Fin 4) : accIndex (BitVec.ofNat 8 k.val) = k := by
  ext; simp [accIndex]

@[simp] theorem wordIndex_ofNat (k : Fin 16) : wordIndex (BitVec.ofNat 8 k.val) = k := by
  ext; simp [wordIndex]

@[simp] theorem lenHalf_ofNat (h : Fin 2) : lenHalf (BitVec.ofNat 8 h.val) = h.val := by
  simp [lenHalf]; omega

/-! ## Bytes of the buffer -/

/-- LOADX writes the four bytes of word k and no other (41 R142). -/
theorem getElem_putWord (buf : Block) (k : Fin 16) (data : Word) (j : Nat) (hj : j < 64) :
    (putWord buf k data)[j] = if j / 4 = k.val then byteOf data (j % 4) else buf[j] := by
  have hk : j / 4 = k.val ↔
      (4 * k.val = j ∨ 4 * k.val + 1 = j ∨ 4 * k.val + 2 = j ∨ 4 * k.val + 3 = j) := by omega
  by_cases h : j / 4 = k.val
  · rw [if_pos h]
    rcases hk.mp h with h | h | h | h
    · simp [putWord, ← h]
    · simp [putWord, ← h, Nat.add_mod]
    · simp [putWord, ← h, Nat.add_mod]
    · simp [putWord, ← h, Nat.add_mod]
  · have hn := mt hk.mpr h
    simp only [not_or] at hn
    simp [putWord, hn, h]

/-- Clearing a range clears the bytes in it and no other (40_padding_encoder.md R108). -/
@[simp] theorem getElem_zeroRange (buf : Block) (lo hi j : Nat) (hj : j < 64) :
    (zeroRange buf lo hi)[j] = if lo ≤ j ∧ j < hi then 0 else buf[j] := by
  simp [zeroRange]

/-- The length occupies the last eight bytes (40 R108). -/
@[simp] theorem getElem_putLength (buf : Block) (len : Word64) (j : Nat) (hj : j < 64) :
    (putLength buf len)[j] = if 56 ≤ j then byteOf64 len (j - 56) else buf[j] := by
  simp [putLength]

/-- The marker is at FILL (40 R108). -/
theorem getElem_markedBuf (s : State) (j : Nat) (hj : j < 64) :
    s.markedBuf[j] = if j = s.fill.toNat then 0x80 else s.buf[j] := by
  simp [State.markedBuf, Vector.getElem_set, eq_comm]

/-! ## Words -/

@[simp] theorem byteOf_le32_zero (a b c d : Byte) : byteOf (le32 a b c d) 0 = a := by
  unfold byteOf le32
  ext i hi
  simp [BitVec.getLsbD_eq_getElem, hi, show i < 16 by omega, show i < 24 by omega]
  omega

@[simp] theorem byteOf_le32_one (a b c d : Byte) : byteOf (le32 a b c d) 1 = b := by
  unfold byteOf le32
  ext i hi
  simp (disch := omega) [BitVec.getLsbD_of_ge, show 8 + i < 16 by omega, show 8 + i < 24 by omega]

@[simp] theorem byteOf_le32_two (a b c d : Byte) : byteOf (le32 a b c d) 2 = c := by
  unfold byteOf le32
  ext i hi
  simp (disch := omega) [BitVec.getLsbD_of_ge, show 16 + i < 24 by omega]

@[simp] theorem byteOf_le32_three (a b c d : Byte) : byteOf (le32 a b c d) 3 = d := by
  unfold byteOf le32
  ext i hi
  simp (disch := omega) [BitVec.getLsbD_of_ge]

/-- A word is the sum of its bytes at their weights (00 R9). -/
theorem toNat_eq_bytes (w : Word) : w.toNat = (byteOf w 0).toNat + 2 ^ 8 * (byteOf w 1).toNat +
    2 ^ 16 * (byteOf w 2).toNat + 2 ^ 24 * (byteOf w 3).toNat := by
  have := w.isLt
  simp only [byteOf, BitVec.extractLsb'_toNat, Nat.shiftRight_eq_div_pow]
  omega

/-- The word of a word's bytes is the word (00_scope.md R9). -/
@[simp] theorem le32_bytesOf (w : Word) : le32 (byteOf w 0) (byteOf w 1) (byteOf w 2) (byteOf w 3) = w := by
  unfold le32 byteOf
  ext i hi
  interval_cases i <;> simp

/-- RDX after LOADX: the loaded word, or the word that was there (20_memory.md R54). -/
theorem wordView_putWord (buf : Block) (k j : Fin 16) (data : Word) :
    wordView (putWord buf k data) j = if j = k then data else wordView buf j := by
  unfold wordView
  simp only [getElem_putWord]
  simp only [show 4 * j.val / 4 = j.val by omega, show (4 * j.val + 1) / 4 = j.val by omega,
    show (4 * j.val + 2) / 4 = j.val by omega, show (4 * j.val + 3) / 4 = j.val by omega,
    show 4 * j.val % 4 = 0 by omega, show (4 * j.val + 1) % 4 = 1 by omega,
    show (4 * j.val + 2) % 4 = 2 by omega, show (4 * j.val + 3) % 4 = 3 by omega, ← Fin.ext_iff]
  split
  · simp
  · rfl

/-! ## STATUS -/

/-- The bits of STATUS (10_state.md R30). -/
theorem getLsbD_status (s : State) (k : Nat) (hk : k < 32) : s.status.getLsbD k =
    if k < 2 then s.phase.code.getLsbD k else if k = 2 then s.err else if k = 3 then s.lenOvf
    else if k < 8 then s.cause.code.getLsbD (k - 4) else if k < 14 then s.fill.getLsbD (k - 8) else false := by
  unfold State.status
  interval_cases k <;> simp

end Sys2Proof.Machine
end

