-- ==== Sys2Proof/Laws/Digest.lean ====
section
/-! SUPPORT. Lemmas of Serialize and Hex: which byte or character stands at an index, and as a number. -/

namespace Sys2Proof.Machine

@[simp] theorem getElem_serialize (acc : Accumulator) (n : Nat) (hn : n < 16) :
    (serialize acc)[n] = byteOf acc[n / 4] (n % 4) := by simp [serialize]

/-- The character of a four-bit value, as a number (42_digest_serializer.md R171). -/
theorem hexChar_eq (v : BitVec 4) :
    hexChar v = BitVec.ofNat 8 (if v.toNat ≤ 9 then 0x30 + v.toNat else 0x61 + (v.toNat - 10)) := by
  revert v
  decide

/-- Character m renders the high half of byte m / 2 for even m and the low half for odd m (42 R171). -/
theorem getElem_hex (d : Vector Byte 16) (m : Nat) (hm : m < 32) : (hex d)[m] =
    if m % 2 = 0 then hexChar (d[m / 2].extractLsb' 4 4) else hexChar (d[m / 2].extractLsb' 0 4) := by simp [hex]

theorem toNat_highHalf (b : Byte) : (b.extractLsb' 4 4).toNat = b.toNat / 16 := by
  have := b.isLt
  simp only [BitVec.extractLsb'_toNat, Nat.shiftRight_eq_div_pow]
  omega

theorem toNat_lowHalf (b : Byte) : (b.extractLsb' 0 4).toNat = b.toNat % 16 := by simp

end Sys2Proof.Machine
end

