-- ==== Sys2Proof/Laws/State.lean ====
section
/-! SUPPORT. One lemma per field per state update, each true by rfl, so that no proof unfolds an update. -/

namespace Sys2Proof.Machine


@[simp] theorem State.complete_acc (d : Word) (s : State) : (s.complete d).acc = s.acc := rfl
@[simp] theorem State.complete_buf (d : Word) (s : State) : (s.complete d).buf = s.buf := rfl
@[simp] theorem State.complete_fill (d : Word) (s : State) : (s.complete d).fill = s.fill := rfl
@[simp] theorem State.complete_len (d : Word) (s : State) : (s.complete d).len = s.len := rfl
@[simp] theorem State.complete_phase (d : Word) (s : State) : (s.complete d).phase = s.phase := rfl
@[simp] theorem State.complete_err (d : Word) (s : State) : (s.complete d).err = s.err := rfl
@[simp] theorem State.complete_lenOvf (d : Word) (s : State) : (s.complete d).lenOvf = s.lenOvf := rfl
@[simp] theorem State.complete_cause (d : Word) (s : State) : (s.complete d).cause = s.cause := rfl
@[simp] theorem State.complete_rsp (d : Word) (s : State) : (s.complete d).rsp = some ⟨false, d⟩ := rfl
@[simp] theorem State.complete_held (d : Word) (s : State) : (s.complete d).held = s.held := rfl
@[simp] theorem State.complete_host (d : Word) (s : State) : (s.complete d).host = s.host := rfl

@[simp] theorem State.raise_acc (c : Cause) (s : State) : (s.raise c).acc = s.acc := rfl
@[simp] theorem State.raise_buf (c : Cause) (s : State) : (s.raise c).buf = s.buf := rfl
@[simp] theorem State.raise_fill (c : Cause) (s : State) : (s.raise c).fill = s.fill := rfl
@[simp] theorem State.raise_len (c : Cause) (s : State) : (s.raise c).len = s.len := rfl
@[simp] theorem State.raise_phase (c : Cause) (s : State) : (s.raise c).phase = s.phase := rfl
@[simp] theorem State.raise_err (c : Cause) (s : State) : (s.raise c).err = true := rfl
@[simp] theorem State.raise_lenOvf (c : Cause) (s : State) : (s.raise c).lenOvf = s.lenOvf := rfl
@[simp] theorem State.raise_cause (c : Cause) (s : State) : (s.raise c).cause = c := rfl
@[simp] theorem State.raise_rsp (c : Cause) (s : State) : (s.raise c).rsp = some ⟨true, zext32 c.code⟩ := rfl
@[simp] theorem State.raise_held (c : Cause) (s : State) : (s.raise c).held = s.held := rfl
@[simp] theorem State.raise_host (c : Cause) (s : State) : (s.raise c).host = s.host := rfl

@[simp] theorem State.open_acc (s : State) : (s.open).acc = iv := rfl
@[simp] theorem State.open_buf (s : State) : (s.open).buf = Vector.replicate 64 0 := rfl
@[simp] theorem State.open_fill (s : State) : (s.open).fill = 0 := rfl
@[simp] theorem State.open_len (s : State) : (s.open).len = 0 := rfl
@[simp] theorem State.open_phase (s : State) : (s.open).phase = .absorb := rfl
@[simp] theorem State.open_err (s : State) : (s.open).err = false := rfl
@[simp] theorem State.open_lenOvf (s : State) : (s.open).lenOvf = false := rfl
@[simp] theorem State.open_cause (s : State) : (s.open).cause = .none := rfl
@[simp] theorem State.open_rsp (s : State) : (s.open).rsp = s.rsp := rfl
@[simp] theorem State.open_held (s : State) : (s.open).held = s.held := rfl
@[simp] theorem State.open_host (s : State) : (s.open).host = s.host := rfl

@[simp] theorem State.absorbByte_acc (b : Byte) (s : State) : (s.absorbByte b).acc = 
      if s.fill = 63 then compress s.acc (s.buf.set s.fill.toNat b s.fill.isLt) else s.acc := rfl
@[simp] theorem State.absorbByte_buf (b : Byte) (s : State) : (s.absorbByte b).buf = s.buf.set s.fill.toNat b s.fill.isLt := rfl
/-- FILL counts modulo 64: the 64th byte takes it from 63 back to 0 (10_state.md R24). -/
@[simp] theorem State.absorbByte_fill (b : Byte) (s : State) : (s.absorbByte b).fill = s.fill + 1 := by
  show (if s.fill = 63 then 0 else s.fill + 1) = s.fill + 1
  split
  · rename_i h; rw [h]; rfl
  · rfl
@[simp] theorem State.absorbByte_len (b : Byte) (s : State) : (s.absorbByte b).len = s.len + 8 := rfl
@[simp] theorem State.absorbByte_phase (b : Byte) (s : State) : (s.absorbByte b).phase = s.phase := rfl
@[simp] theorem State.absorbByte_err (b : Byte) (s : State) : (s.absorbByte b).err = s.err := rfl
@[simp] theorem State.absorbByte_lenOvf (b : Byte) (s : State) : (s.absorbByte b).lenOvf = (s.lenOvf || lenWraps s.len) := rfl
@[simp] theorem State.absorbByte_cause (b : Byte) (s : State) : (s.absorbByte b).cause = s.cause := rfl
@[simp] theorem State.absorbByte_rsp (b : Byte) (s : State) : (s.absorbByte b).rsp = s.rsp := rfl
@[simp] theorem State.absorbByte_held (b : Byte) (s : State) : (s.absorbByte b).held = s.held := rfl
@[simp] theorem State.absorbByte_host (b : Byte) (s : State) : (s.absorbByte b).host = s.host := rfl

@[simp] theorem State.resetBlock_acc (s : State) : (s.resetBlock).acc = State.reset.acc := rfl
@[simp] theorem State.resetBlock_buf (s : State) : (s.resetBlock).buf = State.reset.buf := rfl
@[simp] theorem State.resetBlock_fill (s : State) : (s.resetBlock).fill = State.reset.fill := rfl
@[simp] theorem State.resetBlock_len (s : State) : (s.resetBlock).len = State.reset.len := rfl
@[simp] theorem State.resetBlock_phase (s : State) : (s.resetBlock).phase = State.reset.phase := rfl
@[simp] theorem State.resetBlock_err (s : State) : (s.resetBlock).err = State.reset.err := rfl
@[simp] theorem State.resetBlock_lenOvf (s : State) : (s.resetBlock).lenOvf = State.reset.lenOvf := rfl
@[simp] theorem State.resetBlock_cause (s : State) : (s.resetBlock).cause = State.reset.cause := rfl
@[simp] theorem State.resetBlock_rsp (s : State) : (s.resetBlock).rsp = State.reset.rsp := rfl
@[simp] theorem State.resetBlock_held (s : State) : (s.resetBlock).held = State.reset.held := rfl
@[simp] theorem State.resetBlock_host (s : State) : (s.resetBlock).host = s.host := rfl

@[simp] theorem State.awaitTaken_acc (p : PortSample) (s : State) : (s.awaitTaken p).acc = s.acc := rfl
@[simp] theorem State.awaitTaken_buf (p : PortSample) (s : State) : (s.awaitTaken p).buf = s.buf := rfl
@[simp] theorem State.awaitTaken_fill (p : PortSample) (s : State) : (s.awaitTaken p).fill = s.fill := rfl
@[simp] theorem State.awaitTaken_len (p : PortSample) (s : State) : (s.awaitTaken p).len = s.len := rfl
@[simp] theorem State.awaitTaken_phase (p : PortSample) (s : State) : (s.awaitTaken p).phase = s.phase := rfl
@[simp] theorem State.awaitTaken_err (p : PortSample) (s : State) : (s.awaitTaken p).err = s.err := rfl
@[simp] theorem State.awaitTaken_lenOvf (p : PortSample) (s : State) : (s.awaitTaken p).lenOvf = s.lenOvf := rfl
@[simp] theorem State.awaitTaken_cause (p : PortSample) (s : State) : (s.awaitTaken p).cause = s.cause := rfl
@[simp] theorem State.awaitTaken_rsp (p : PortSample) (s : State) : (s.awaitTaken p).rsp = if p.rspReady then none else s.rsp := rfl
@[simp] theorem State.awaitTaken_held (p : PortSample) (s : State) : (s.awaitTaken p).held = p.cmd := rfl
@[simp] theorem State.awaitTaken_host (p : PortSample) (s : State) : (s.awaitTaken p).host = s.host := rfl

@[simp] theorem State.finish_len (s : State) : s.finish.len = s.len := by unfold State.finish; split <;> rfl
@[simp] theorem State.finish_lenOvf (s : State) : s.finish.lenOvf = s.lenOvf := by unfold State.finish; split <;> rfl
@[simp] theorem State.finish_err (s : State) : s.finish.err = s.err := by unfold State.finish; split <;> rfl
@[simp] theorem State.finish_cause (s : State) : s.finish.cause = s.cause := by unfold State.finish; split <;> rfl
@[simp] theorem State.finish_rsp (s : State) : s.finish.rsp = s.rsp := by unfold State.finish; split <;> rfl
@[simp] theorem State.finish_held (s : State) : s.finish.held = s.held := by unfold State.finish; split <;> rfl
@[simp] theorem State.finish_host (s : State) : s.finish.host = s.host := by unfold State.finish; split <;> rfl
@[simp] theorem State.finish_fill (s : State) : s.finish.fill = 0 := by unfold State.finish; split <;> rfl
@[simp] theorem State.finish_phase (s : State) : s.finish.phase = .done := by unfold State.finish; split <;> rfl

@[simp] theorem State.absorbWord_phase (data : Word) (s : State) : (s.absorbWord data).phase = s.phase := rfl
@[simp] theorem State.absorbWord_err (data : Word) (s : State) : (s.absorbWord data).err = s.err := rfl
@[simp] theorem State.absorbWord_cause (data : Word) (s : State) : (s.absorbWord data).cause = s.cause := rfl
@[simp] theorem State.absorbWord_rsp (data : Word) (s : State) : (s.absorbWord data).rsp = s.rsp := rfl
@[simp] theorem State.absorbWord_held (data : Word) (s : State) : (s.absorbWord data).held = s.held := rfl
@[simp] theorem State.absorbWord_len (data : Word) (s : State) : (s.absorbWord data).len = s.len + 32 := by
  simp [State.absorbWord, BitVec.add_assoc]
@[simp] theorem State.absorbWord_fill (data : Word) (s : State) : (s.absorbWord data).fill = s.fill + 4 := by
  simp [State.absorbWord, BitVec.add_assoc]
/-- LEN_OVF is set when any of the four absorptions wraps LEN (40_padding_encoder.md R107). -/
theorem State.absorbWord_lenOvf (data : Word) (s : State) :
    (s.absorbWord data).lenOvf = (s.lenOvf || decide (2 ^ 64 ≤ s.len.toNat + 32)) := by
  have := s.len.isLt
  simp only [State.absorbWord, State.absorbByte_lenOvf, State.absorbByte_len, lenWraps]
  cases s.lenOvf
  · rw [Bool.eq_iff_iff]
    simp only [Bool.false_or, Bool.or_eq_true, decide_eq_true_eq, BitVec.ofNat_eq_ofNat,
      BitVec.toNat_add, BitVec.toNat_ofNat]
    omega
  · simp
@[simp] theorem State.absorbWord_host (data : Word) (s : State) : (s.absorbWord data).host = s.host := rfl

@[simp] theorem State.withFetchWord_rsp (s : State) (n w : Nat) : (s.withFetchWord n w).rsp = none := rfl
@[simp] theorem State.withFetchWord_held (s : State) (n w : Nat) : (s.withFetchWord n w).held = none := rfl
@[simp] theorem State.withFetchWord_host (s : State) (n w : Nat) :
    (s.withFetchWord n w).host = presenting (BitVec.ofNat 64 (w % 2 ^ n)) :: s.host := rfl
@[simp] theorem State.withFetchWord_phase (s : State) (n w : Nat) : (s.withFetchWord n w).phase = s.phase := rfl

end Sys2Proof.Machine
end

