-- ==== Sys2Proof/Laws/Ops.lean ====
section
/-! SUPPORT. What the shared operations can do, said once: the phase check, every command, one accepted word, runs of
several, one port sample and one step. -/

namespace Sys2Proof.Machine

/-! ## The phase check and the commands -/

theorem checked_legal {i : Instr} {s : State} (h : legalIn i s.phase = true) (f : State → State) :
    s.checked i f = .next (f s) := by simp [State.checked, h]

theorem checked_illegal {i : Instr} {s : State} (h : legalIn i s.phase = false) (f : State → State) :
    s.checked i f = .next (s.raise .badPhase) := by simp [State.checked, h]

/-- The state a command leaves when its phase check passes. -/
def effectOf : Instr → State → State
  | .nop, s => s.complete 0
  | .init, s => s.open.complete 0
  | .absorb b, s => (s.absorbByte b).complete 0
  | .absorbw data, s => (s.absorbWord data).complete 0
  | .final, s => s.finish.complete 0
  | .rddig idx, s => s.complete (zext32 (serialize s.acc)[digestIndex idx])
  | .rdhex idx, s => s.complete (zext32 (hex (serialize s.acc))[hexIndex idx])
  | .rdacc idx, s => s.complete s.acc[accIndex idx]
  | .rdstat, s => s.complete s.status
  | .rdlen idx, s => s.complete (halfOf s.len (lenHalf idx))
  | .idle, s => State.complete 0 { s with phase := .idle }
  | .loada idx data, s => State.complete 0 { s with acc := s.acc.set (accIndex idx).val data }
  | .loadx idx data, s => State.complete 0 { s with buf := putWord s.buf (wordIndex idx) data }
  | .compress, s => State.complete 0 { s with acc := compress s.acc s.buf }
  | .rdx idx, s => s.complete (wordView s.buf (wordIndex idx))

/-- The state a command leaves: its effect, or the failure of the phase check. -/
def after (i : Instr) (s : State) : State := if legalIn i s.phase then effectOf i s else s.raise .badPhase

/-- Every command answers a next state, in every state. -/
theorem exec_eq (i : Instr) (s : State) : exec i s = .next (after i s) := by cases i <;> rfl

theorem after_legal {i : Instr} {s : State} (h : legalIn i s.phase = true) : after i s = effectOf i s := by
  simp [after, h]

theorem after_illegal {i : Instr} {s : State} (h : legalIn i s.phase = false) : after i s = s.raise .badPhase := by
  simp [after, h]

/-- A command that passes its phase check answers without error. -/
theorem effectOf_rsp (i : Instr) (s : State) : ∃ d, (effectOf i s).rsp = some ⟨false, d⟩ := by
  cases i <;> exact ⟨_, rfl⟩

@[simp] theorem effectOf_host (i : Instr) (s : State) : (effectOf i s).host = s.host := by
  cases i <;> simp [effectOf]

@[simp] theorem effectOf_held (i : Instr) (s : State) : (effectOf i s).held = s.held := by
  cases i <;> simp [effectOf]

@[simp] theorem after_host (i : Instr) (s : State) : (after i s).host = s.host := by
  unfold after; split <;> simp

@[simp] theorem after_held (i : Instr) (s : State) : (after i s).held = s.held := by
  unfold after; split <;> simp

/-! ## One accepted word -/

/-- The state an accepted word leaves. -/
def afterWord (w : Word64) (s : State) : State :=
  match decode w with
  | .ok i => after i s
  | .error e => s.raise (causeOf e)

/-- Every accepted word answers a next state, in every state. -/
theorem accept_eq (w : Word64) (s : State) : accept w s = .next (afterWord w s) := by
  rcases h : decode w with e | i
  · simp only [accept, afterWord, h]
  · simp only [accept, afterWord, h, exec_eq]

theorem afterWord_ok {w : Word64} {i : Instr} (h : decode w = .ok i) (s : State) : afterWord w s = after i s := by
  simp [afterWord, h]

theorem afterWord_error {w : Word64} {e : DecodeError} (h : decode w = .error e) (s : State) :
    afterWord w s = s.raise (causeOf e) := by simp [afterWord, h]

@[simp] theorem afterWord_host (w : Word64) (s : State) : (afterWord w s).host = s.host := by
  unfold afterWord; split <;> simp

@[simp] theorem afterWord_held (w : Word64) (s : State) : (afterWord w s).held = s.held := by
  unfold afterWord; split <;> simp

/-- The three things an accepted word can do: fail to decode, fail its phase check, or have its effect. -/
theorem afterWord_cases (w : Word64) (s : State) :
    (∃ e, decode w = .error e ∧ afterWord w s = s.raise (causeOf e)) ∨
    (∃ i, decode w = .ok i ∧ legalIn i s.phase = false ∧ afterWord w s = s.raise .badPhase) ∨
    (∃ i, decode w = .ok i ∧ legalIn i s.phase = true ∧ afterWord w s = effectOf i s) := by
  rcases h : decode w with e | i
  · exact .inl ⟨e, rfl, afterWord_error h s⟩
  · rw [afterWord_ok h]
    rcases hl : legalIn i s.phase with _ | _
    · exact .inr (.inl ⟨i, rfl, hl, after_illegal hl⟩)
    · exact .inr (.inr ⟨i, rfl, hl, after_legal hl⟩)

/-! ## Runs -/

theorem execAll_eq (is : List Instr) (s : State) : execAll is s = .next (is.foldl (fun s i => after i s) s) := by
  induction is generalizing s with
  | nil => rfl
  | cons i is ih => simp [execAll, exec_eq, ih]

theorem acceptAll_eq (ws : List Word64) (s : State) :
    acceptAll ws s = .next (ws.foldl (fun s w => afterWord w s) s) := by
  induction ws generalizing s with
  | nil => rfl
  | cons w ws ih => simp [acceptAll, accept_eq, ih]

/-! ## The port -/

/-- What one sample can do: reset the block, be refused, hand over or keep the response, find no command, or accept one. -/
theorem sample_cases (p : PortSample) (s : State) :
    (p.rstN = false ∧ sample p s = .next s.resetBlock) ∨
    (p.rstN = true ∧ brokeHold p s = true ∧ sample p s = .refused .hostBrokeHold) ∨
    (p.rstN = true ∧ brokeHold p s = false ∧ (∃ r, s.rsp = some r) ∧ sample p s = .next (s.awaitTaken p)) ∨
    (p.rstN = true ∧ brokeHold p s = false ∧ s.rsp = none ∧ p.cmd = none ∧ sample p s = .next { s with held := none }) ∨
    (∃ w, p.rstN = true ∧ brokeHold p s = false ∧ s.rsp = none ∧ p.cmd = some w ∧
      sample p s = .next (afterWord w { s with held := none })) := by
  rcases hr : p.rstN with _ | _
  · simp [sample, hr]
  rcases hb : brokeHold p s with _ | _
  · rcases h1 : s.rsp with _ | r
    · rcases h2 : p.cmd with _ | w
      · simp [sample, transact, hr, hb, h1, h2]
      · simp [sample, transact, hr, hb, h1, h2, accept_eq]
    · simp [sample, transact, hr, hb, h1]
  · simp [sample, hr, hb]

/-- A step with a sample to come is that sample, the list shortened. -/
theorem step_cons {s : State} {p : PortSample} {rest : List PortSample} (h : s.host = p :: rest) :
    step s = sample p { s with host := rest } := by simp [step, h]

theorem step_nil {s : State} (h : s.host = []) : step s = .next s := by simp [step, h]

theorem brokeHold_false {p : PortSample} {s : State} (h : s.held = none ∨ s.held = p.cmd) : brokeHold p s = false := by
  rcases h with h | h <;> simp [brokeHold, h]

/-- The word placed by `withFetchWord` is accepted by the very next step. -/
theorem step_withFetchWord (s : State) (n w : Nat) :
    step (s.withFetchWord n w) = accept (BitVec.ofNat 64 (w % 2 ^ n)) { s with rsp := none, held := none } := rfl

/-! ## The words of one opcode -/

/-- If the tables of the decoder give an opcode its command, its data mask and its index width, the words of that opcode
behave as 30 R76 says. -/
theorem wordsOf_of_tables (op : Byte) (mask : Word) (limit : Option Nat) (cmd : Byte → Word → Instr)
    (h : ∀ idx data, instrOf op idx data = some (cmd idx data) ∧ dataMask (cmd idx data) = mask ∧
      (idxWidth (cmd idx data)).map (2 ^ ·) = limit) : WordsOf op mask limit cmd := by
  intro w s hop idx rsvd data
  obtain ⟨h1, h2, h3⟩ := h idx data
  have hd : decode w = if rsvd ≠ 0 then .error .rsvdNonzero
      else if data &&& ~~~ mask ≠ 0 then .error .rsvdNonzero
      else checkIndex idx (cmd idx data) := by
    unfold decode opField
    rw [hop]
    simp only [idxField, dataField, rsvdField]
    rw [h1]
    simp only [h2]
    rfl
  unfold accept
  rw [hd]
  clear_value idx rsvd data
  unfold checkIndex
  rcases hw : idxWidth (cmd idx data) with _ | n
  · have hl : limit = none := by rw [← h3, hw]; rfl
    subst hl
    split_ifs <;> simp_all [causeOf]
  · have hl : limit = some (2 ^ n) := by rw [← h3, hw]; rfl
    subst hl
    simp only [shiftRight_ne_zero_iff]
    split_ifs <;> simp_all [causeOf]

end Sys2Proof.Machine
end

