-- ==== Sys2Proof/Laws/Invariant.lean ====
section
/-! SUPPORT. The fields of STATUS, and the invariant of 10_state.md R35 over each operation of an accepted word. -/

namespace Sys2Proof.Machine

/-! ## STATUS (10 R30) -/

theorem status_phase (s : State) : s.status.extractLsb' 0 2 = s.phase.code := by
  ext i hi
  rw [BitVec.getElem_extractLsb', getLsbD_status _ _ (by omega), Nat.zero_add, if_pos hi, BitVec.getLsbD_eq_getElem]

theorem status_cause (s : State) : s.status.extractLsb' 4 4 = s.cause.code := by
  ext i hi
  rw [BitVec.getElem_extractLsb', getLsbD_status _ _ (by omega), if_neg (by omega), if_neg (by omega),
    if_neg (by omega), if_pos (by omega), Nat.add_sub_cancel_left, BitVec.getLsbD_eq_getElem]

theorem status_reserved (s : State) : s.status.extractLsb' 14 18 = 0 := by
  ext i hi
  rw [BitVec.getElem_extractLsb', getLsbD_status _ _ (by omega), if_neg (by omega), if_neg (by omega),
    if_neg (by omega), if_neg (by omega), if_neg (by omega)]
  simp

/-! ## The invariant -/

/-- The clauses about STATUS hold of every state. -/
theorem State.inv_of {s : State} (h1 : s.err = false ↔ s.cause = .none) (h2 : s.len.toNat % 8 = 0)
    (h3 : s.phase = .absorb → s.len.toNat % 512 = 8 * s.fill.toNat) (h4 : s.phase = .done → s.fill = 0)
    (h5 : ∀ d, s.rsp = some { err := true, data := d } → s.err = true ∧ d = zext32 s.cause.code) : s.Inv where
  errCause := h1
  wholeBytes := h2
  openFill := h3
  doneFill := h4
  failedResponse := h5
  statusPhase := by rw [status_phase]; cases s.phase <;> decide
  statusCause := by rw [status_cause]; cases s.cause <;> decide
  statusReserved := status_reserved s

theorem State.Inv.raise {s : State} (h : s.Inv) {c : Cause} (hc : c ≠ .none) : (s.raise c).Inv := by
  refine State.inv_of (by simp [hc]) h.wholeBytes h.openFill h.doneFill ?_
  intro d hd
  simp only [State.raise_rsp, Option.some.injEq, Response.mk.injEq, true_and] at hd
  exact ⟨rfl, hd.symm⟩

theorem State.Inv.complete {s : State} (h : s.Inv) (d : Word) : (s.complete d).Inv :=
  State.inv_of h.errCause h.wholeBytes h.openFill h.doneFill (by simp)

/-- One absorbed byte adds 8 to LEN and 1 to FILL, both modulo their widths (40_padding_encoder.md R105). -/
theorem State.Inv.absorbByte {s : State} (h : s.Inv) (hp : s.phase = .absorb) (b : Byte) : (s.absorbByte b).Inv := by
  have h2 := h.wholeBytes
  have h3 := h.openFill hp
  have hf := s.fill.isLt
  have hl := s.len.isLt
  refine State.inv_of h.errCause ?_ ?_ (by simp [hp]) h.failedResponse
  · simp only [State.absorbByte_len, BitVec.toNat_add, BitVec.ofNat_eq_ofNat, BitVec.toNat_ofNat]
    omega
  · intro _
    simp only [State.absorbByte_len, State.absorbByte_fill, BitVec.toNat_add, BitVec.ofNat_eq_ofNat, BitVec.toNat_ofNat]
    omega

theorem State.Inv.absorbWord {s : State} (h : s.Inv) (hp : s.phase = .absorb) (data : Word) : (s.absorbWord data).Inv :=
  (((h.absorbByte hp _).absorbByte hp _).absorbByte hp _).absorbByte hp _

/-- The effect of every command keeps the invariant. -/
theorem State.Inv.ofEffect {s : State} (h : s.Inv) {i : Instr} (hl : legalIn i s.phase = true) : (effectOf i s).Inv := by
  cases i with
  | init => exact State.inv_of (by simp [effectOf]) (by simp [effectOf]) (by simp [effectOf]) (by simp [effectOf]) (by simp [effectOf])
  | absorb b => exact (h.absorbByte (by simpa [legalIn] using hl) b).complete 0
  | absorbw data => exact (h.absorbWord (by simpa [legalIn] using hl) data).complete 0
  | final =>
    exact State.inv_of (by simpa [effectOf] using h.errCause) (by simpa [effectOf] using h.wholeBytes)
      (by simp [effectOf]) (by simp [effectOf]) (by simp [effectOf])
  | idle =>
    exact State.inv_of h.errCause h.wholeBytes (by simp [effectOf]) (by simp [effectOf]) (by simp [effectOf])
  | loada _ _ => exact State.inv_of h.errCause h.wholeBytes h.openFill h.doneFill (by simp [effectOf])
  | loadx _ _ => exact State.inv_of h.errCause h.wholeBytes h.openFill h.doneFill (by simp [effectOf])
  | compress => exact State.inv_of h.errCause h.wholeBytes h.openFill h.doneFill (by simp [effectOf])
  | nop => exact h.complete _
  | rddig _ => exact h.complete _
  | rdhex _ => exact h.complete _
  | rdacc _ => exact h.complete _
  | rdstat => exact h.complete _
  | rdlen _ => exact h.complete _
  | rdx _ => exact h.complete _

/-- Every accepted word keeps the invariant, from every state that has it. -/
theorem State.Inv.ofWord {s : State} (h : s.Inv) (w : Word64) : (afterWord w s).Inv := by
  rcases afterWord_cases w s with ⟨e, _, hw⟩ | ⟨i, _, _, hw⟩ | ⟨i, _, hl, hw⟩ <;> rw [hw]
  · exact h.raise (by cases e <;> simp [causeOf])
  · exact h.raise (by simp)
  · exact h.ofEffect hl

end Sys2Proof.Machine
end

