-- ==== Sys2Proof/Laws/Padding.lean ====
section
/-! SUPPORT. Lemmas of Pad and Blocks, and of the relation between a message and the state that absorbs it: one absorbed
byte extends the message, and the padding that FINAL writes is the padding of the message. -/

namespace Sys2Proof.Machine

/-! ## Lengths -/

theorem padZeros_spec (l : Nat) : padZeros l < 64 ∧ (l + 1 + padZeros l) % 64 = 56 := by
  unfold padZeros
  omega

theorem length_pad (m : List Byte) : (pad m).length = m.length + 9 + padZeros m.length := by
  simp [pad, zeros, bytesLe64]
  omega

@[simp] theorem length_blocks (p : List Byte) : (blocks p).length = p.length / 64 := by simp [blocks]

@[simp] theorem length_fullBlocks (m : List Byte) : (fullBlocks m).length = m.length / 64 := by simp [fullBlocks]

/-! ## Bytes -/

/-- The bytes of a padded message: the message, the marker, zeros, the length (40_padding_encoder.md R100). -/
theorem getD_pad (m : List Byte) (i : Nat) (hi : i < (pad m).length) : (pad m).getD i 0 =
    if i < m.length then m.getD i 0 else if i = m.length then 0x80
    else if i < m.length + 1 + padZeros m.length then 0
    else byteOf64 (BitVec.ofNat 64 (m.length * 8)) (i - (m.length + 1 + padZeros m.length)) := by
  have hl := length_pad m
  unfold pad
  simp only [List.getD_eq_getElem?_getD]
  by_cases h1 : i < m.length
  · rw [List.append_assoc, List.append_assoc, List.getElem?_append_left h1, if_pos h1]
  rw [if_neg h1]
  by_cases h2 : i = m.length
  · rw [if_pos h2, h2]
    simp
  rw [if_neg h2]
  by_cases h3 : i < m.length + 1 + padZeros m.length
  · rw [if_pos h3, List.getElem?_append_left (by simp [zeros]; omega), List.getElem?_append_right (by simp; omega)]
    rw [zeros, List.getElem?_replicate, if_pos (by simp; omega)]
    rfl
  · rw [if_neg h3, List.getElem?_append_right (by simp [zeros]; omega)]
    have hlen : (m ++ [(0x80 : Byte)] ++ zeros (padZeros m.length)).length = m.length + 1 + padZeros m.length := by
      simp [zeros]
      omega
    rw [hlen]
    have : i - (m.length + 1 + padZeros m.length) < 8 := by omega
    simp [bytesLe64, this]

/-- A block inside the first of two lists is a block of that list. -/
theorem blockAt_append (m x : List Byte) (n : Nat) (h : 64 * n + 64 ≤ m.length) :
    blockAt (m ++ x) n = blockAt m n := by
  unfold blockAt
  apply Vector.ext
  intro j hj
  rw [Vector.getElem_ofFn, Vector.getElem_ofFn, List.getD_append _ _ _ _ (by simp only; omega)]

theorem toList_blockAt (p : List Byte) (k : Nat) (h : 64 * k + 64 ≤ p.length) :
    (blockAt p k).toList = (p.drop (64 * k)).take 64 := by
  apply List.ext_getElem
  · simp; omega
  · intro i h1 h2
    have h3 : i < 64 := by simpa using h1
    have h4 : 64 * k + i < p.length := by omega
    rw [Vector.getElem_toList, List.getElem_take, List.getElem_drop]
    unfold blockAt
    rw [Vector.getElem_ofFn, List.getD_eq_getElem _ _ h4]

/-- The first n blocks of a message are those of any longer message that starts with it. -/
theorem map_blockAt_append (m x : List Byte) (n : Nat) (h : 64 * n ≤ m.length) :
    (List.range n).map (blockAt (m ++ x)) = (List.range n).map (blockAt m) := by
  apply List.map_congr_left
  intro k hk
  exact blockAt_append m x k (by have := List.mem_range.mp hk; omega)

/-! ## One absorbed byte -/

/-- absorb_byte extends the message by its byte (40 R105, R110). -/
theorem MessageInv.absorbByte {m : List Byte} {s : State} (h : MessageInv m s) (b : Byte) :
    MessageInv (m ++ [b]) (s.absorbByte b) := by
  have hf := h.fill
  have hlt := s.fill.isLt
  have hq : 64 * (m.length / 64) + s.fill.toNat = m.length := by omega
  have hget : ∀ i, i < m.length → (m ++ [b]).getD i 0 = m.getD i 0 := fun i hi => List.getD_append _ _ _ _ hi
  have hlast : (m ++ [b]).getD m.length 0 = b := by simp
  have hbuf : ∀ j (hj : j < 64), j ≤ s.fill.toNat →
      (s.absorbByte b).buf[j] = (m ++ [b]).getD (64 * (m.length / 64) + j) 0 := by
    intro j hj hle
    rw [State.absorbByte_buf, Vector.getElem_set]
    split
    · rename_i he
      rw [← he, hq, hlast]
    · rw [hget _ (by omega)]
      exact h.buf ⟨j, hj⟩ (by simp only; omega)
  constructor
  · simpa using h.phase
  · simp only [State.absorbByte_fill, BitVec.toNat_add, List.length_append, List.length_singleton]
    simp
    omega
  · rw [State.absorbByte_len, h.len, ← BitVec.toNat_inj]
    simp
    omega
  · have hlen : s.len.toNat = 8 * m.length % 2 ^ 64 := by rw [h.len]; simp
    simp only [State.absorbByte_lenOvf, Bool.or_eq_true, h.lenOvf, lenWraps, decide_eq_true_eq, List.length_append,
      List.length_singleton]
    omega
  · intro j hj
    have hs : (s.absorbByte b).fill.toNat = (s.fill.toNat + 1) % 64 := by simp
    rw [hs] at hj
    have h63 : s.fill.toNat ≠ 63 := by omega
    have hdiv : (m ++ [b]).length / 64 = m.length / 64 := by
      simp only [List.length_append, List.length_singleton]; omega
    rw [hdiv]
    exact hbuf j.val j.isLt (by omega)
  · rw [State.absorbByte_acc]
    by_cases h63 : s.fill = 63
    · have h63' : s.fill.toNat = 63 := by rw [h63]; rfl
      have hdiv : (m ++ [b]).length / 64 = m.length / 64 + 1 := by
        simp only [List.length_append, List.length_singleton]; omega
      have hblk : s.buf.set s.fill.toNat b s.fill.isLt = blockAt (m ++ [b]) (m.length / 64) := by
        apply Vector.ext
        intro j hj
        rw [blockAt, Vector.getElem_ofFn]
        exact hbuf j hj (by omega)
      rw [if_pos h63, hblk, fullBlocks, hdiv, List.range_succ, List.map_append,
        map_blockAt_append _ _ _ (by omega), List.foldl_append, ← fullBlocks, ← h.acc]
      rfl
    · have h63' : s.fill.toNat ≠ 63 := fun hc => h63 (BitVec.eq_of_toNat_eq hc)
      have hdiv : (m ++ [b]).length / 64 = m.length / 64 := by
        simp only [List.length_append, List.length_singleton]; omega
      rw [if_neg h63, fullBlocks, hdiv, map_blockAt_append _ _ _ (by omega), ← fullBlocks, ← h.acc]

/-- The four bytes of a word extend the message in the order DATA[7:0] first (40 R107). -/
theorem MessageInv.absorbWord {m : List Byte} {s : State} (h : MessageInv m s) (data : Word) :
    MessageInv (m ++ bytesLe32 data) (s.absorbWord data) := by
  have := (((h.absorbByte (byteOf data 0)).absorbByte (byteOf data 1)).absorbByte (byteOf data 2)).absorbByte
    (byteOf data 3)
  simpa [bytesLe32, State.absorbWord] using this

/-- The relation depends on the six fields it names alone. -/
theorem MessageInv.congr {m : List Byte} {s t : State} (h : MessageInv m s) (ha : t.acc = s.acc) (hb : t.buf = s.buf)
    (hf : t.fill = s.fill) (hl : t.len = s.len) (hp : t.phase = s.phase) (ho : t.lenOvf = s.lenOvf) :
    MessageInv m t :=
  ⟨hp ▸ h.phase, hf ▸ h.fill, hl ▸ h.len, ho ▸ h.lenOvf, hf ▸ hb ▸ h.buf, ha ▸ h.acc⟩

/-- INIT opens the empty message. -/
theorem messageInv_open (s : State) : MessageInv [] s.open := by
  constructor
  · rfl
  · rfl
  · rfl
  · simp
  · intro j hj; simp at hj
  · rfl

/-! ## FINAL -/

/-- The block FINAL pads when the length fits is the last block of the padded message (40 R108, R109). -/
theorem MessageInv.lastBlock_one {m : List Byte} {s : State} (h : MessageInv m s) (hf : s.fill.toNat ≤ 55) :
    putLength (zeroRange s.markedBuf (s.fill.toNat + 1) 56) s.len = blockAt (pad m) (m.length / 64) := by
  have h1 := h.fill
  obtain ⟨h2, h3⟩ := padZeros_spec m.length
  have h4 := length_pad m
  apply Vector.ext
  intro j hj
  rw [blockAt, Vector.getElem_ofFn, getD_pad _ _ (by simp only; omega)]
  simp only [getElem_putLength, getElem_zeroRange, getElem_markedBuf]
  by_cases c1 : j < s.fill.toNat
  · rw [if_neg (by omega), if_neg (by omega), if_neg (by omega), if_pos (by omega)]
    exact h.buf ⟨j, hj⟩ c1
  by_cases c2 : j = s.fill.toNat
  · rw [if_neg (by omega), if_neg (by omega), if_pos c2, if_neg (by omega), if_pos (by omega)]
  by_cases c3 : j < 56
  · rw [if_neg (by omega), if_pos (by omega), if_neg (by omega), if_neg (by omega), if_pos (by omega)]
  · rw [if_pos (by omega), if_neg (by omega), if_neg (by omega), if_neg (by omega), h.len]
    congr 1
    · rw [Nat.mul_comm]
    · omega

/-- The first block FINAL pads when the length does not fit is the last but one of the padded message (40 R109). -/
theorem MessageInv.firstBlock_two {m : List Byte} {s : State} (h : MessageInv m s) (hf : 56 ≤ s.fill.toNat) :
    zeroRange s.markedBuf (s.fill.toNat + 1) 64 = blockAt (pad m) (m.length / 64) := by
  have h1 := h.fill
  obtain ⟨h2, h3⟩ := padZeros_spec m.length
  have h4 := length_pad m
  apply Vector.ext
  intro j hj
  rw [blockAt, Vector.getElem_ofFn, getD_pad _ _ (by simp only; omega)]
  simp only [getElem_zeroRange, getElem_markedBuf]
  by_cases c1 : j < s.fill.toNat
  · rw [if_neg (by omega), if_neg (by omega), if_pos (by omega)]
    exact h.buf ⟨j, hj⟩ c1
  by_cases c2 : j = s.fill.toNat
  · rw [if_neg (by omega), if_pos c2, if_neg (by omega), if_pos (by omega)]
  · rw [if_pos (by omega), if_neg (by omega), if_neg (by omega), if_pos (by omega)]

/-- The second block FINAL pads then is the last of the padded message (40 R109). -/
theorem MessageInv.lastBlock_two {m : List Byte} {s : State} (h : MessageInv m s) (hf : 56 ≤ s.fill.toNat)
    (buf : Block) : putLength (zeroRange buf 0 56) s.len = blockAt (pad m) (m.length / 64 + 1) := by
  have h1 := h.fill
  have h0 := s.fill.isLt
  obtain ⟨h2, h3⟩ := padZeros_spec m.length
  have h4 := length_pad m
  apply Vector.ext
  intro j hj
  rw [blockAt, Vector.getElem_ofFn, getD_pad _ _ (by simp only; omega)]
  simp only [getElem_putLength, getElem_zeroRange]
  by_cases c3 : j < 56
  · rw [if_neg (by omega), if_pos (by omega), if_neg (by omega), if_neg (by omega), if_pos (by omega)]
  · rw [if_pos (by omega), if_neg (by omega), if_neg (by omega), if_neg (by omega), h.len]
    congr 1
    · rw [Nat.mul_comm]
    · omega

/-- The padded message starts with the full blocks of the message (40 R101). -/
theorem map_blockAt_pad (m : List Byte) :
    (List.range (m.length / 64)).map (blockAt (pad m)) = fullBlocks m := by
  unfold pad fullBlocks
  rw [List.append_assoc, List.append_assoc, map_blockAt_append _ _ _ (by omega)]

end Sys2Proof.Machine
end

