-- ==== Sys2Proof/Laws/PerInstr.lean ====
section
/-! SUPPORT. Statements about every command as syntax, one lemma per constructor. -/

namespace Sys2Proof.Laws

/-- The word of a command holds its opcode, its index operand, zero and its data operand in the four fields of
30_encoding.md R70, and the phase and index checks aside it passes the decoder: the opcode map reads the command back. -/
def EncodesFields.Statement (i : Instr) : Prop :=
  opField (encode i) = opcode i ∧ idxField (encode i) = idxOperand i ∧ rsvdField (encode i) = 0 ∧
    dataField (encode i) = dataOperand i ∧
    instrOf (opField (encode i)) (idxField (encode i)) (dataField (encode i)) = some i

theorem encodesFields (i : Instr) : EncodesFields.Statement i := by
  simp [EncodesFields.Statement, encode]

theorem EncodesFields.nop : EncodesFields.Statement .nop := encodesFields _
theorem EncodesFields.init : EncodesFields.Statement .init := encodesFields _
theorem EncodesFields.absorb (b : Byte) : EncodesFields.Statement (.absorb b) := encodesFields _
theorem EncodesFields.absorbw (data : Word) : EncodesFields.Statement (.absorbw data) := encodesFields _
theorem EncodesFields.final : EncodesFields.Statement .final := encodesFields _
theorem EncodesFields.rddig (idx : Byte) : EncodesFields.Statement (.rddig idx) := encodesFields _
theorem EncodesFields.rdhex (idx : Byte) : EncodesFields.Statement (.rdhex idx) := encodesFields _
theorem EncodesFields.rdacc (idx : Byte) : EncodesFields.Statement (.rdacc idx) := encodesFields _
theorem EncodesFields.rdstat : EncodesFields.Statement .rdstat := encodesFields _
theorem EncodesFields.rdlen (idx : Byte) : EncodesFields.Statement (.rdlen idx) := encodesFields _
theorem EncodesFields.idle : EncodesFields.Statement .idle := encodesFields _
theorem EncodesFields.loada (idx : Byte) (data : Word) : EncodesFields.Statement (.loada idx data) := encodesFields _
theorem EncodesFields.loadx (idx : Byte) (data : Word) : EncodesFields.Statement (.loadx idx data) := encodesFields _
theorem EncodesFields.compress : EncodesFields.Statement .compress := encodesFields _
theorem EncodesFields.rdx (idx : Byte) : EncodesFields.Statement (.rdx idx) := encodesFields _

end Sys2Proof.Laws
end

