-- ==== Sys2Proof/Laws/Port.lean ====
section
/-! SUPPORT. The port: what one step does with a presented word and with an outstanding response, when a sample is
refused, and that a command neither reads nor changes the port side of the state. -/

namespace Sys2Proof.Machine

/-! ## Commands and the port side -/

/-- A command reads neither the response it replaces, nor the held word, nor the samples to come. -/
theorem after_port (i : Instr) (s : State) (r : Option Response) (h : Option Word64) (p : List PortSample) :
    after i { s with rsp := r, held := h, host := p } = { after i s with held := h, host := p } := by
  unfold after
  dsimp only
  split
  · cases i <;> try rfl
    simp only [effectOf, State.finish]
    split <;> rfl
  · rfl

theorem afterWord_port (w : Word64) (s : State) (r : Option Response) (h : Option Word64) (p : List PortSample) :
    afterWord w { s with rsp := r, held := h, host := p } = { afterWord w s with held := h, host := p } := by
  unfold afterWord
  split
  · apply after_port
  · rfl

/-- The same of a run of accepted words. -/
theorem foldl_afterWord_port (ws : List Word64) (s : State) (h : Option Word64) (p : List PortSample) :
    ws.foldl (fun s w => afterWord w s) { s with held := h, host := p } =
      { ws.foldl (fun s w => afterWord w s) s with held := h, host := p } := by
  induction ws generalizing s with
  | nil => rfl
  | cons w ws ih => rw [List.foldl_cons, afterWord_port w s s.rsp, ih, List.foldl_cons]

/-- Every accepted word leaves a response. -/
theorem afterWord_rsp (w : Word64) (s : State) : ∃ r, (afterWord w s).rsp = some r := by
  rcases afterWord_cases w s with ⟨_, _, h⟩ | ⟨_, _, _, h⟩ | ⟨i, _, _, h⟩ <;> rw [h]
  · exact ⟨_, rfl⟩
  · exact ⟨_, rfl⟩
  · exact (effectOf_rsp i s).elim fun _ hd => ⟨_, hd⟩

/-! ## One step -/

/-- The duty of 70 R247 is broken exactly when a held word is not presented again. -/
theorem brokeHold_iff (p : PortSample) (s : State) : brokeHold p s = true ↔ ∃ w, s.held = some w ∧ p.cmd ≠ some w := by
  unfold brokeHold
  rcases s.held with _ | w
  · simp
  · simp only [Option.isSome_some, Bool.true_and, bne_iff_ne, Option.some.injEq, exists_eq_left']
    exact ne_comm

/-- A presented word is accepted when no response is outstanding (70 R241, R242). -/
theorem step_accept {s : State} {w : Word64} {ready : Bool} {rest : List PortSample}
    (hs : s.host = { rstN := true, cmd := some w, rspReady := ready } :: rest) (hr : s.rsp = none)
    (hb : s.held = none ∨ s.held = some w) : step s = accept w { s with host := rest, held := none } := by
  have hb' : brokeHold ⟨true, some w, ready⟩ { s with host := rest } = false := brokeHold_false hb
  rw [step_cons hs, sample, if_neg (by simp), if_neg (by simp [hb']), transact]
  simp only [hr]

/-- An outstanding response stays until the host takes it (70 R241, R242). -/
theorem step_await {s : State} {r : Response} {p : PortSample} {rest : List PortSample}
    (hs : s.host = p :: rest) (hp : p.rstN = true) (hr : s.rsp = some r) (hb : s.held = none ∨ s.held = p.cmd) :
    step s = .next { s with host := rest, held := p.cmd, rsp := if p.rspReady then none else some r } := by
  have hb' : brokeHold p { s with host := rest } = false := brokeHold_false hb
  rw [step_cons hs, sample, if_neg (by simp [hp]), if_neg (by simp [hb']), transact]
  simp only [hr, State.awaitTaken]

/-- A run starts with its first step. -/
theorem run_succ {s t : State} (n : Nat) (h : step s = .next t) :
    Host.Core.run Sys2Proof.core (n + 1) s = Host.Core.run Sys2Proof.core n t := by
  have h' : Sys2Proof.core.step s = .next t := h
  simp only [Host.Core.run, h']

/-- A run of n + k steps is a run of n and then one of k. -/
theorem run_add {s t : State} (n k : Nat) (h : Host.Core.run Sys2Proof.core n s = .next t) :
    Host.Core.run Sys2Proof.core (n + k) s = Host.Core.run Sys2Proof.core k t := by
  induction n generalizing s with
  | zero =>
    cases h
    rw [Nat.zero_add]
  | succ n ih =>
    rw [Nat.succ_add]
    simp only [Host.Core.run] at h ⊢
    rcases hs : Sys2Proof.core.step s with u | r | r <;> simp only [hs] at h ⊢
    · exact ih h
    · cases h
    · cases h

end Sys2Proof.Machine
end

