-- ==== Sys2Proof/Tests/Slice0.lean ====
section
/-! SUPPORT. The model's own tests: ill-formed commands are refused, every command's word decodes, small one-step cases
with the values of spec/95_test_vectors.md, and a witness for the hypotheses of every statement. -/

namespace Sys2Proof.Machine

/-! ## Helpers -/

/-- The reset state in a given phase. -/
def inPhase (p : Phase) : State := { State.reset with phase := p }

/-- The state after INIT and n bytes `x` (0x78), n at most 63. -/
def opened (n : Nat) : State :=
  { State.reset with
    buf := Vector.ofFn fun j => if j.val < n then 0x78 else 0
    fill := BitVec.ofNat 6 n, len := BitVec.ofNat 64 (8 * n), phase := .absorb }

/-- A state of phase ABSORB with FILL = 5 and a given LEN (95 section 2.5). -/
def openedAt (len : Word64) : State := { inPhase .absorb with fill := 5, len := len }

/-- What the host sees of one accepted word: RSP_ERR, RSP_DATA, and STATUS after it. -/
def observe (w : Word64) (s : State) : Option (Bool × Word × Word) :=
  match accept w s with
  | .next t => t.rsp.map fun r => (r.err, r.data, t.status)
  | .fault _ => none
  | .refused _ => none

/-- The state after one accepted word; the given state where there is none. -/
def stateAfter (w : Word64) (s : State) : State :=
  match accept w s with
  | .next t => t
  | .fault _ => s
  | .refused _ => s

/-! ## Well-formedness: one ill-formed command for each index check (30 R73) -/

theorem test_rddig_16_refused : (Instr.rddig 16).wellFormed = false := by decide
theorem test_rdhex_32_refused : (Instr.rdhex 32).wellFormed = false := by decide
theorem test_rdacc_4_refused : (Instr.rdacc 4).wellFormed = false := by decide
theorem test_rdlen_2_refused : (Instr.rdlen 2).wellFormed = false := by decide
theorem test_loada_4_refused : (Instr.loada 4 0).wellFormed = false := by decide
theorem test_loadx_16_refused : (Instr.loadx 16 0).wellFormed = false := by decide
theorem test_rdx_16_refused : (Instr.rdx 16).wellFormed = false := by decide

/-! ## Words: each opcode's word of 30 R82, and the words around it that 60 R213 and R214 reject. Together they meet, for
each command's statement, the hypotheses of the three clauses about its words at the bounds of its fields. -/

theorem test_words_nop : decode 0x0000000000000000 = .ok .nop ∧ decode 0x0000000000000001 = .error .rsvdNonzero ∧
    decode 0x0001000000000000 = .error .rsvdNonzero ∧ decode 0x0000000100000000 = .error .rsvdNonzero := by decide
theorem test_words_init : decode 0x0100000000000000 = .ok .init ∧ decode 0x0100800000000000 = .error .rsvdNonzero := by
  decide
theorem test_words_absorb : decode 0x0200000000000061 = .ok (.absorb 0x61) ∧
    decode 0x02000000000000ff = .ok (.absorb 0xff) ∧ decode 0x0200000000000100 = .error .rsvdNonzero := by decide
theorem test_words_absorbw : decode 0x0300000064636261 = .ok (.absorbw 0x64636261) ∧
    decode 0x0301000064636261 = .error .rsvdNonzero := by decide
theorem test_words_final : decode 0x0400000000000000 = .ok .final ∧ decode 0x0480000000000000 = .error .rsvdNonzero := by
  decide
theorem test_words_rddig : decode 0x050f000000000000 = .ok (.rddig 15) ∧ decode 0x0510000000000000 = .error .badIndex ∧
    decode 0x0510000000000001 = .error .rsvdNonzero := by decide
theorem test_words_rdhex : decode 0x061f000000000000 = .ok (.rdhex 31) ∧ decode 0x0620000000000000 = .error .badIndex ∧
    decode 0x0600000080000000 = .error .rsvdNonzero := by decide
theorem test_words_rdacc : decode 0x0703000000000000 = .ok (.rdacc 3) ∧ decode 0x0704000000000000 = .error .badIndex ∧
    decode 0x0700000100000000 = .error .rsvdNonzero := by decide
theorem test_words_rdstat : decode 0x0800000000000000 = .ok .rdstat ∧ decode 0x0801000000000000 = .error .rsvdNonzero := by
  decide
theorem test_words_rdlen : decode 0x0901000000000000 = .ok (.rdlen 1) ∧ decode 0x0902000000000000 = .error .badIndex ∧
    decode 0x0901000000000001 = .error .rsvdNonzero := by decide
theorem test_words_idle : decode 0x0a00000000000000 = .ok .idle ∧ decode 0x0a00000000000001 = .error .rsvdNonzero := by
  decide
theorem test_words_loada : decode 0x0b02000098badcfe = .ok (.loada 2 0x98badcfe) ∧
    decode 0x0b04000000000005 = .error .badIndex ∧ decode 0x0b04000100000005 = .error .rsvdNonzero := by decide
theorem test_words_loadx : decode 0x0c0e000000000018 = .ok (.loadx 14 0x18) ∧
    decode 0x0c10000000000005 = .error .badIndex ∧ decode 0x0c10000100000005 = .error .rsvdNonzero := by decide
theorem test_words_compress : decode 0x0d00000000000000 = .ok .compress ∧
    decode 0x0d01000000000000 = .error .rsvdNonzero := by decide
theorem test_words_rdx : decode 0x0e00000000000000 = .ok (.rdx 0) ∧ decode 0x0e10000000000000 = .error .badIndex ∧
    decode 0x0eff000000000000 = .error .badIndex ∧ decode 0x0e00000000000001 = .error .rsvdNonzero := by decide
theorem test_words_illegal : decode 0x0f00000000000000 = .error .illegalOp ∧
    decode 0xffffffffffffffff = .error .illegalOp := by decide

/-! ## One step each, with the values of 95_test_vectors.md. Each command's two cases meet the phase hypotheses of its
statement: a phase that admits it and one that does not. -/

/-- 95 section 5.3 rows 1 and 5. -/
theorem test_nop : observe 0x0000000000000000 State.reset = some (false, 0, 0) ∧
    observe 0x0000000000000000 (opened 1) = some (false, 0, 0x00000101) := by decide +kernel

/-- 95 section 2.2 rows 2 and 11. -/
theorem test_init : observe 0x0100000000000000 State.reset = some (false, 0, 0x00000001) ∧
    observe 0x0100000000000000 (opened 5) = some (false, 0, 0x00000001) := by decide +kernel

/-- 95 section 2.3: the 64th byte compresses inside the same ABSORB. -/
theorem test_absorb_completes_block :
    observe 0x0200000000000079 (opened 63) = some (false, 0, 0x00000001) ∧
    (stateAfter 0x0200000000000079 (opened 63)).acc = #v[0xa7ce6e46, 0x3a7b0a90, 0x3149850d, 0x3a3f941f] := by
  decide +kernel

/-- 95 section 2.5, rows 1 and 2 (the two sides of the wrap of LEN), and section 5.1: ABSORB in IDLE. -/
theorem test_absorb_wrap_and_phase :
    observe 0x0200000000000041 (openedAt 0xfffffffffffffff0) = some (false, 0, 0x00000601) ∧
    observe 0x0200000000000041 (openedAt 0xfffffffffffffff8) = some (false, 0, 0x00000609) ∧
    observe 0x0200000000000061 State.reset = some (true, 4, 0x00000044) := by decide +kernel

/-- 95 section 2.3, ABSORBW across a block boundary, and 60 R215 in IDLE. -/
theorem test_absorbw :
    observe 0x0300000064636261 (opened 62) = some (false, 0, 0x00000201) ∧
    (stateAfter 0x0300000064636261 (opened 62)).acc = #v[0x373d1544, 0xee8ac7b8, 0x0710f8ac, 0x7a561e9e] ∧
    observe 0x0300000000000061 State.reset = some (true, 4, 0x00000044) := by decide +kernel

/-- 95 section 2.5 row 3, and an ABSORBW that stays inside a block: FILL at the last value, 59, and the first, 60, that
completes one. -/
theorem test_absorbw_wrap :
    observe 0x0300000041414141 (openedAt 0xfffffffffffffff0) = some (false, 0, 0x00000909) ∧
    (stateAfter 0x0300000041414141 (opened 59)).acc = iv ∧
    (stateAfter 0x0300000041414141 (opened 60)).acc ≠ iv := by decide +kernel

/-- 95 section 2.4, L = 55: one compression, digest 04364420e25c512fd958a70738aa8f72. -/
theorem test_final_one_block :
    observe 0x0400000000000000 (opened 55) = some (false, 0, 0x00000002) ∧
    (serialize (stateAfter 0x0400000000000000 (opened 55)).acc).toList =
      [0x04, 0x36, 0x44, 0x20, 0xe2, 0x5c, 0x51, 0x2f, 0xd9, 0x58, 0xa7, 0x07, 0x38, 0xaa, 0x8f, 0x72] := by
  decide +kernel

/-- 95 section 2.4, L = 56: two compressions, digest 668a72d5ba17f08e62dabcafad6db14b; section 5.1: FINAL in IDLE. -/
theorem test_final_two_blocks :
    (serialize (stateAfter 0x0400000000000000 (opened 56)).acc).toList =
      [0x66, 0x8a, 0x72, 0xd5, 0xba, 0x17, 0xf0, 0x8e, 0x62, 0xda, 0xbc, 0xaf, 0xad, 0x6d, 0xb1, 0x4b] ∧
    observe 0x0400000000000000 State.reset = some (true, 4, 0x00000044) := by decide +kernel

/-- 95 section 4.1: byte 15 of the digest of IV's accumulator, and section 5.1: RDDIG in IDLE. -/
theorem test_rddig : observe 0x050f000000000000 (inPhase .done) = some (false, 0x10, 0x00000002) ∧
    observe 0x0501000000000000 (inPhase .done) = some (false, 0x23, 0x00000002) ∧
    observe 0x0500000000000000 State.reset = some (true, 4, 0x00000044) := by decide +kernel

/-- 95 section 4.1: characters 11 ('b') and 31 ('0') of 0123456789abcdeffedcba9876543210. -/
theorem test_rdhex : observe 0x060b000000000000 (inPhase .done) = some (false, 0x62, 0x00000002) ∧
    observe 0x061f000000000000 (inPhase .done) = some (false, 0x30, 0x00000002) ∧
    observe 0x0600000000000000 State.reset = some (true, 4, 0x00000044) := by decide +kernel

/-- 10 R34: the accumulator after reset. -/
theorem test_rdacc : observe 0x0703000000000000 State.reset = some (false, 0x10325476, 0) := by decide +kernel

/-- 95 section 2.2 row 7: STATUS with FILL = 5 in ABSORB. -/
theorem test_rdstat : observe 0x0800000000000000 (opened 5) = some (false, 0x00000501, 0x00000501) := by decide +kernel

/-- 95 section 2.5 row 4: RDLEN 1 returns the carry into the high half. -/
theorem test_rdlen : observe 0x0901000000000000 (openedAt 0x0000000100000000) = some (false, 1, 0x00000501) ∧
    observe 0x0900000000000000 (opened 5) = some (false, 0x28, 0x00000501) := by decide +kernel

/-- 95 section 5.3 row 7: IDLE abandons the message and keeps FILL. -/
theorem test_idle : observe 0x0a00000000000000 (opened 1) = some (false, 0, 0x00000100) := by decide +kernel

/-- 41 R141, and 60 R215 in ABSORB. -/
theorem test_loada :
    (stateAfter 0x0b02000012345678 State.reset).acc = #v[0x67452301, 0xefcdab89, 0x12345678, 0x10325476] ∧
    observe 0x0b02000012345678 (inPhase .absorb) = some (true, 4, 0x00000045) := by decide +kernel

/-- 95 section 3.6 rows 10 and 14: the bytes of 0xdeadbeef at BUF[20..23], least significant first. -/
theorem test_loadx :
    (stateAfter 0x0c050000deadbeef State.reset).buf.toList.take 25 =
      zeros 20 ++ [0xef, 0xbe, 0xad, 0xde, 0x00] ∧
    observe 0x0c00000000000001 (inPhase .absorb) = some (true, 4, 0x00000045) := by decide +kernel

/-- 95 section 3.4 row 1 and section 3.6 row 15. -/
theorem test_compress :
    (stateAfter 0x0d00000000000000 State.reset).acc = #v[0x031f1dac, 0x6ea58ed0, 0x1fab67b7, 0x74317791] ∧
    observe 0x0d00000000000000 (inPhase .absorb) = some (true, 4, 0x00000045) := by decide +kernel

/-- 95 section 3.6 rows 11 and 12. -/
theorem test_rdx :
    observe 0x0e05000000000000 { State.reset with buf := putWord State.reset.buf 5 0xdeadbeef } =
      some (false, 0xdeadbeef, 0) ∧
    observe 0x0e04000000000000 { State.reset with buf := putWord State.reset.buf 5 0xdeadbeef } =
      some (false, 0, 0) := by decide +kernel

/-! ## Pure functions -/

/-- 95 section 3.1. -/
theorem test_rotl : rotl 0x80000000 1 = 0x00000001 ∧ rotl 0x00000001 31 = 0x80000000 ∧
    rotl 0x12345678 23 = 0x3c091a2b ∧ rotl 0xdeadbeef 7 = 0x56df77ef := by decide

/-- 95 section 3.2: F, G, H and I at b, c, d = 0xf0f0f0f0, 0xcccccccc, 0xaaaaaaaa, in the first round of each quartile. -/
theorem test_round_functions : roundFn 0 0xf0f0f0f0 0xcccccccc 0xaaaaaaaa = 0xcacacaca ∧
    roundFn 16 0xf0f0f0f0 0xcccccccc 0xaaaaaaaa = 0xe4e4e4e4 ∧
    roundFn 32 0xf0f0f0f0 0xcccccccc 0xaaaaaaaa = 0x96969696 ∧
    roundFn 48 0xf0f0f0f0 0xcccccccc 0xaaaaaaaa = 0x39393939 := by decide

/-- 95 section 3.3. -/
theorem test_message_index : [0, 15, 16, 17, 31, 32, 33, 47, 48, 49, 63].map msgIndexNat =
    [0, 15, 1, 6, 12, 5, 8, 2, 0, 7, 9] := by decide

/-- 95 section 2.1: z for L = 0, 1, 55, 56, 63, 64, 119, 120. -/
theorem test_pad_zeros : [0, 1, 55, 56, 63, 64, 119, 120].map padZeros = [55, 54, 0, 63, 56, 55, 0, 63] := by decide

/-- 95 section 4.2: the digest of "message digest". -/
theorem test_md5_message_digest :
    (md5 [0x6d, 0x65, 0x73, 0x73, 0x61, 0x67, 0x65, 0x20, 0x64, 0x69, 0x67, 0x65, 0x73, 0x74]).map Vector.toList =
      some [0xf9, 0x6b, 0x69, 0x7d, 0x7c, 0xb7, 0x93, 0x8d, 0x52, 0x5a, 0x2f, 0x31, 0xaa, 0xf1, 0x61, 0xd0] := by
  decide +kernel

/-! ## The host's entry points -/

/-- The table word of FINAL runs as the first command after reset: accepted, and failing BAD_PHASE. -/
theorem test_withFetchWord : decodeTableWord 64 0x0400000000000000 = some .final ∧
    step (State.reset.withFetchWord 64 0x0400000000000000) = exec .final State.reset := ⟨by decide, rfl⟩

/-! ## Witnesses: for every statement with hypotheses, a state and operands that meet all of them together -/

/-- The state that has accepted "abc" (95 section 6 P1, after row 4). -/
def absorbedAbc : State :=
  stateAfter 0x0200000000000063 (stateAfter 0x0200000000000062 (stateAfter 0x0200000000000061
    (stateAfter 0x0100000000000000 State.reset)))

/-- A state with a response outstanding while the host holds a word. -/
def waiting : State :=
  { State.reset with
    rsp := some { err := false, data := 7 }, held := some 1
    host := [{ rstN := true, cmd := some 1, rspReady := false }, { rstN := true, cmd := some 1, rspReady := true }] }

theorem witness_ResetSampleGivesTheResetState :
    ({ waiting with host := [{ rstN := false, cmd := none, rspReady := false }] } : State).host =
      { rstN := false, cmd := none, rspReady := false } :: [] ∧
    (step { waiting with host := [{ rstN := false, cmd := none, rspReady := false }] }) = .next State.reset := by
  constructor <;> rfl

theorem witness_DecodeReadsBackEveryCommand :
    (Instr.rdx 15).wellFormed = true ∧ (Instr.rdx 16).wellFormed = false := by decide

theorem witness_OneWordPerCommand : decode 0x0b03000012345678 = .ok (.loada 3 0x12345678) := by decide

/-- Each clause, and the words where two of them meet: the earlier cause wins (95 section 5.1). -/
theorem witness_RejectedWords : decode 0x0f00000100000000 = .error .illegalOp ∧
    decode 0x0510000000000001 = .error .rsvdNonzero ∧ decode 0x0e10000000000000 = .error .badIndex := by decide

theorem witness_BadPhaseExactlyWhereTheTableSaysNo :
    (Instr.absorb 0xff).wellFormed = true ∧ (inPhase .done).phase ≠ .absorb ∧
    (Instr.rdhex 31).wellFormed = true ∧ (inPhase .idle).phase ≠ .done ∧ (inPhase .done).phase = .done ∧
    (Instr.loadx 15 0).wellFormed = true ∧ (inPhase .absorb).phase ≠ .idle := by decide

theorem witness_FailureChangesOnlyErrAndCause :
    ∃ t, accept 0x0f00000000000000 State.reset = .next t ∧ t.rsp = some { err := true, data := 1 } := ⟨_, rfl, rfl⟩

/-- A word of each clause: INIT, a failure, a completion that is not INIT. -/
theorem witness_OnlyInitAndResetClearErr : decode 0x0100000000000000 = .ok .init ∧
    (stateAfter 0x0f00000000000000 State.reset).rsp = some { err := true, data := 1 } ∧
    decode 0x0800000000000000 ≠ .ok .init ∧
    (stateAfter 0x0800000000000000 State.reset).rsp = some { err := false, data := 0 } := by decide +kernel

/-- A word of each clause: INIT, FINAL in ABSORB and in IDLE, IDLE, and one that is none of them. -/
theorem witness_PhaseTransitions : decode 0x0100000000000000 = .ok .init ∧ decode 0x0400000000000000 = .ok .final ∧
    (inPhase .absorb).phase = .absorb ∧ State.reset.phase ≠ .absorb ∧ decode 0x0a00000000000000 = .ok .idle ∧
    decode 0x0d00000000000000 = .ok .compress := by decide

/-- A word that changes each element. -/
theorem witness_StateIsWrittenOnlyByItsCommands :
    (stateAfter 0x0b00000000000000 State.reset).acc ≠ State.reset.acc ∧
    (stateAfter 0x0c00000000000001 State.reset).buf ≠ State.reset.buf ∧
    (stateAfter 0x0200000000000061 (opened 5)).fill ≠ (opened 5).fill ∧
    (stateAfter 0x0200000000000061 (opened 5)).len ≠ (opened 5).len ∧
    (stateAfter 0x0a00000000000000 (opened 5)).phase ≠ (opened 5).phase ∧
    (stateAfter 0x0200000000000061 (openedAt 0xfffffffffffffff8)).lenOvf ≠ (openedAt 0xfffffffffffffff8).lenOvf := by
  decide +kernel

theorem witness_RepeatedCommandsAreIdempotent : ∃ t, exec (.loadx 3 0x01020304) State.reset = .next t := ⟨_, rfl⟩

theorem witness_LenOvfFailsNoCommand : ∃ t, exec .rdstat (openedAt 0xfffffffffffffff8) = .next t := ⟨_, rfl⟩

/-- The phases of the hypotheses of the command statements, and FILL at both sides of the bound of FINAL. -/
theorem witness_commands : (opened 55).phase = .absorb ∧ (opened 55).fill.toNat ≤ 55 ∧ (opened 56).phase = .absorb ∧
    56 ≤ (opened 56).fill.toNat ∧ (opened 59).fill.toNat < 60 ∧ (inPhase .done).phase = .done ∧
    (inPhase .done).phase ≠ .idle ∧ State.reset.phase = .idle ∧ State.reset.phase ≠ .absorb ∧
    State.reset.phase ≠ .done := by decide

theorem witness_RdxAfterLoadx : State.reset.phase = .idle ∧
    ∃ t, exec (.loadx (BitVec.ofNat 8 (15 : Fin 16).val) 0x01020304) State.reset = .next t := ⟨rfl, _, rfl⟩

theorem witness_RotationsPermuteBits : 1 ≤ 1 ∧ 1 ≤ 31 ∧ 31 ≤ 31 ∧ tableS 0 = 7 := by decide

/-- A byte list for each clause: a message whose length modulo 64 is 55, and one where it is 56; a place of the zeros. -/
theorem witness_PadContract_PadBlockCount : (zeros 55).length % 64 ≤ 55 ∧ 56 ≤ (zeros 56).length % 64 ∧
    (zeros 56).length < 57 ∧ 57 + 8 < (pad (zeros 56)).length := by decide +kernel

theorem witness_BlocksCutInOrder : (zeros 128).length % 64 = 0 ∧ ∃ b, (blocks (zeros 128))[1]? = some b :=
  ⟨by decide +kernel, _, List.getElem?_eq_getElem (by decide +kernel)⟩

/-- The relation of 40 R110 holds of "abc" and the state that absorbed it. -/
theorem witness_MessageInv : MessageInv [0x61, 0x62, 0x63] absorbedAbc where
  phase := by decide +kernel
  fill := by decide +kernel
  len := by decide +kernel
  lenOvf := by decide +kernel
  buf := by decide +kernel
  acc := by decide +kernel

theorem witness_keepsOpen : keepsOpen 0x0300000064636261 ∧ keepsOpen 0xffffffffffffffff ∧
    (∃ t, accept 0x0300000064636261 absorbedAbc = .next t) := by
  refine ⟨?_, ?_, _, accept_eq _ _⟩ <;> (unfold keepsOpen; decide)

theorem witness_MessageIsTracked : ∃ t, exec .init State.reset = .next t := ⟨_, rfl⟩

/-- Words that carry "abcd" with a failing word between, and a message whose digest is defined. -/
theorem witness_DigestOfEveryMessage :
    (∀ w ∈ [(0x0300000064636261 : Word64), 0xffffffffffffffff], keepsOpen w) ∧ ∃ d, md5 [0x61, 0x62, 0x63, 0x64] = some d := by
  refine ⟨?_, _, if_pos (by simp)⟩
  intro w hw
  rcases List.mem_pair.mp hw with rfl | rfl
  · exact witness_keepsOpen.1
  · exact witness_keepsOpen.2.1

theorem witness_AbsorbsExpansion : (inPhase .absorb).phase = .absorb ∧ ∃ d, md5 [0x61] = some d :=
  ⟨rfl, _, if_pos (by simp)⟩

theorem witness_StepKeepsTheInvariant : State.Inv absorbedAbc ∧
    ∃ t, step { absorbedAbc with host := [presenting 0], rsp := none } = .next t := by
  refine ⟨?_, _, (step_accept rfl rfl (.inl rfl)).trans (accept_eq _ _)⟩
  have h : absorbedAbc.err = false ∧ absorbedAbc.cause = .none ∧ absorbedAbc.len = 24 ∧ absorbedAbc.fill = 3 ∧
      absorbedAbc.phase = .absorb ∧ absorbedAbc.rsp = some { err := false, data := 0 } ∧
      absorbedAbc.status = 0x00000301 := by decide +kernel
  obtain ⟨h1, h2, h3, h4, h5, h6, h7⟩ := h
  constructor
  · simp [h1, h2]
  · rw [h3]; decide
  · rw [h3, h4]; decide
  · rw [h5]; simp
  · rw [h6]; simp
  · rw [h7]; decide
  · rw [h7]; decide
  · rw [h7]; decide

/-- A presented word that decodes and one that does not, with no response outstanding; not held, and held. -/
theorem witness_StepRunsTheDecodedCommand :
    ({ State.reset with host := [presenting 0x0100000000000000] } : State).host = presenting 0x0100000000000000 :: [] ∧
    State.reset.rsp = none ∧ State.reset.held = none ∧
    ({ State.reset with held := some 0x0100000000000000 } : State).held = some 0x0100000000000000 ∧
    decode 0x0100000000000000 = .ok .init ∧ decode 0x0f00000000000000 = .error .illegalOp := by decide

theorem witness_OutstandingResponseBlocksThePort :
    waiting.host = { rstN := true, cmd := some 1, rspReady := false } :: waiting.host.tail ∧
    waiting.rsp = some { err := false, data := 7 } ∧ waiting.held = some 1 := by decide

theorem witness_UntakenResponseWaitsForever : waiting.rsp = some { err := false, data := 7 } ∧ waiting.held = some 1 ∧
    waiting.host = List.replicate 1 { rstN := true, cmd := some 1, rspReady := false } ++ waiting.host.tail := by decide

/-- The second clause: a word first presented during the wait, at its first sample and after one without a word. -/
theorem witness_UntakenResponseWaitsForever_raised :
    ({ waiting with held := none } : State).held = none ∧
    waiting.host = List.replicate 0 { rstN := true, cmd := none, rspReady := false } ++
      (List.replicate (0 + 1) { rstN := true, cmd := some 1, rspReady := false } ++ waiting.host.tail) ∧
    ({ rstN := true, cmd := none, rspReady := false } :: waiting.host : List PortSample) =
      List.replicate 1 { rstN := true, cmd := none, rspReady := false } ++
        (List.replicate (0 + 1) { rstN := true, cmd := some 1, rspReady := false } ++ waiting.host.tail) := by decide

/-- A held word followed by another word, and by none: both are refused. -/
theorem witness_OnlyABrokenHoldStops :
    step { waiting with host := [{ rstN := true, cmd := some 2, rspReady := false }] } = .refused .hostBrokeHold ∧
    step { waiting with host := [{ rstN := true, cmd := none, rspReady := false }] } = .refused .hostBrokeHold := by
  constructor <;> rfl

theorem witness_HostSendsInOrder : State.reset.rsp = none ∧ State.reset.held = none ∧
    ({ State.reset with host := hostSends [0x0100000000000000, 0x0400000000000000] } : State).host =
      hostSends [0x0100000000000000, 0x0400000000000000] ++ [] ∧
    ∃ t, acceptAll [0x0100000000000000, 0x0400000000000000]
      { State.reset with host := hostSends [0x0100000000000000, 0x0400000000000000] } = .next t :=
  ⟨rfl, rfl, rfl, _, acceptAll_eq _ _⟩

theorem witness_QuietPortChangesNothing : State.reset.host = [] ∧ State.reset.rsp = none ∧ State.reset.held = none ∧
    ({ State.reset with host := [taking] } : State).host = { rstN := true, cmd := none, rspReady := true } :: [] := by
  decide

/-- A word that fails to decode and one that fails its phase check; COMPRESS in IDLE and FINAL in ABSORB; a command of the
simple class; ABSORBW and ABSORB in ABSORB, with FILL before and at the wrap. -/
theorem witness_LatencyClasses :
    (∃ t, accept 0x0f00000000000000 State.reset = .next t ∧ t.rsp = some { err := true, data := 1 }) ∧
    (∃ t, exec .final State.reset = .next t ∧ t.rsp = some { err := true, data := 4 }) ∧
    State.reset.phase = .idle ∧ decode 0x0400000000000000 = .ok .final ∧ Instr.rdstat ≠ .final ∧
    (opened 59).phase = .absorb ∧ latencyClass (.absorbw 0) (opened 59) = .absorb ∧
    latencyClass (.absorbw 0) (opened 60) = .compress ∧ latencyClass (.absorb 0) (opened 62) = .absorb ∧
    latencyClass (.absorb 0) (opened 63) = .compress := by
  refine ⟨⟨_, rfl, rfl⟩, ⟨_, rfl, rfl⟩, ?_⟩
  decide +kernel

/-- 70 R248: every kind of failed word is in the simple class, and FINAL in ABSORB is in its own. -/
theorem test_word_classes : wordClass 0x0f00000000000000 (opened 5) = .simple ∧
    wordClass 0x0400000000000001 (opened 5) = .simple ∧ wordClass 0x0c10000000000000 State.reset = .simple ∧
    wordClass 0x0400000000000000 State.reset = .simple ∧ wordClass 0x0400000000000000 (opened 5) = .final := by
  decide +kernel

end Sys2Proof.Machine
end

section
/-! The statements about the state (10_state.md): its reset values, the fields of STATUS, which commands write which
element, ERR and CAUSE, PHASE, and the invariant over every step. -/

namespace Sys2Proof.Machine

/-! ## What an accepted word changes -/

theorem accept_next_iff {w : Word64} {s t : State} : accept w s = .next t ↔ afterWord w s = t := by
  rw [accept_eq, Host.Outcome.next.injEq]

theorem causeOf_ne_none (e : DecodeError) : causeOf e ≠ .none := by
  cases e <;> simp [causeOf]

/-- An accepted word either fails, recording a cause, or has the effect of the command it decodes to. -/
theorem afterWord_fails_or_effect (w : Word64) (s : State) :
    (∃ c, c ≠ .none ∧ afterWord w s = s.raise c) ∨ ∃ i, decode w = .ok i ∧ afterWord w s = effectOf i s := by
  rcases afterWord_cases w s with ⟨e, _, hw⟩ | ⟨_, _, _, hw⟩ | ⟨i, hi, _, hw⟩
  · exact .inl ⟨_, causeOf_ne_none e, hw⟩
  · exact .inl ⟨.badPhase, by simp, hw⟩
  · exact .inr ⟨i, hi, hw⟩

/-- A part of the state that no failure touches is changed only by the effect of a decoded command. -/
theorem changed_by_effect {α : Type} (part : State → α) {w : Word64} {s : State}
    (hpart : ∀ c, part (s.raise c) = part s) (h : part (afterWord w s) ≠ part s) :
    ∃ i, decode w = .ok i ∧ part (effectOf i s) ≠ part s := by
  rcases afterWord_fails_or_effect w s with ⟨c, _, hw⟩ | ⟨i, hi, hw⟩ <;> rw [hw] at h
  · exact absurd (hpart c) h
  · exact ⟨i, hi, h⟩

/-! ## The write column of 10_state.md R22 -/

/-- INIT, ABSORB and ABSORBW: the commands that stand in every row of R22 but those of PHASE and of ERR, CAUSE. -/
def OpensOrAbsorbs (i : Instr) : Prop := i = .init ∨ (∃ b, i = .absorb b) ∨ ∃ d, i = .absorbw d

theorem acc_writers {i : Instr} {s : State} (h : (effectOf i s).acc ≠ s.acc) :
    OpensOrAbsorbs i ∨ i = .final ∨ (∃ k d, i = .loada k d) ∨ i = .compress := by
  cases i with
  | init | absorb _ | absorbw _ | final | loada _ _ | compress => simp [OpensOrAbsorbs]
  | _ => exact absurd rfl h

theorem buf_writers {i : Instr} {s : State} (h : (effectOf i s).buf ≠ s.buf) :
    OpensOrAbsorbs i ∨ i = .final ∨ ∃ k d, i = .loadx k d := by
  cases i with
  | init | absorb _ | absorbw _ | final | loadx _ _ => simp [OpensOrAbsorbs]
  | _ => exact absurd rfl h

theorem fill_writers {i : Instr} {s : State} (h : (effectOf i s).fill ≠ s.fill) :
    OpensOrAbsorbs i ∨ i = .final := by
  cases i with
  | init | absorb _ | absorbw _ | final => simp [OpensOrAbsorbs]
  | _ => exact absurd rfl h

theorem len_writers {i : Instr} {s : State} (h : (effectOf i s).len ≠ s.len) : OpensOrAbsorbs i := by
  cases i with
  | init | absorb _ | absorbw _ => simp [OpensOrAbsorbs]
  | final => exact absurd (State.finish_len s) h
  | _ => exact absurd rfl h

theorem phase_writers {i : Instr} {s : State} (h : (effectOf i s).phase ≠ s.phase) :
    i = .init ∨ i = .final ∨ i = .idle := by
  cases i with
  | init | final | idle => simp
  | _ => exact absurd rfl h

theorem lenOvf_writers {i : Instr} {s : State} (h : (effectOf i s).lenOvf ≠ s.lenOvf) : OpensOrAbsorbs i := by
  cases i with
  | init | absorb _ | absorbw _ => simp [OpensOrAbsorbs]
  | final => exact absurd (State.finish_lenOvf s) h
  | _ => exact absurd rfl h

/-- Of the commands that complete, INIT alone writes ERR and CAUSE. -/
theorem effectOf_err_cause {i : Instr} (hi : i ≠ .init) (s : State) :
    (effectOf i s).err = s.err ∧ (effectOf i s).cause = s.cause := by
  cases i with
  | init => exact absurd rfl hi
  | final => exact ⟨State.finish_err s, State.finish_cause s⟩
  | _ => exact ⟨rfl, rfl⟩

/-! ## The other fields of STATUS (10 R30) -/

theorem status_err (s : State) : s.status.extractLsb' 2 1 = BitVec.ofBool s.err := by
  ext i hi
  obtain rfl : i = 0 := by omega
  rw [BitVec.getElem_extractLsb', getLsbD_status _ _ (by omega)]
  simp

theorem status_lenOvf (s : State) : s.status.extractLsb' 3 1 = BitVec.ofBool s.lenOvf := by
  ext i hi
  obtain rfl : i = 0 := by omega
  rw [BitVec.getElem_extractLsb', getLsbD_status _ _ (by omega)]
  simp

theorem status_fill (s : State) : s.status.extractLsb' 8 6 = s.fill := by
  ext i hi
  rw [BitVec.getElem_extractLsb', getLsbD_status _ _ (by omega), if_neg (by omega), if_neg (by omega),
    if_neg (by omega), if_neg (by omega), if_pos (by omega), Nat.add_sub_cancel_left, BitVec.getLsbD_eq_getElem]

/-! ## The invariant over reset, one sample and one step -/

theorem State.inv_reset : State.reset.Inv :=
  State.inv_of (by simp [State.reset]) (by simp [State.reset]) (by simp [State.reset]) (by simp [State.reset])
    (by simp [State.reset])

/-- The invariant reads nothing of the port but the response: it survives any change of the held word and of the samples
to come, and the response being taken. -/
theorem State.Inv.withPort {s : State} (h : s.Inv) {r : Option Response} (hr : r = none ∨ r = s.rsp)
    (held : Option Word64) (host : List PortSample) : State.Inv { s with rsp := r, held := held, host := host } := by
  refine State.inv_of h.errCause h.wholeBytes h.openFill h.doneFill fun d hd => ?_
  rcases hr with rfl | rfl
  · cases hd
  · exact h.failedResponse d hd

/-- A sample the port does not refuse keeps the invariant. -/
theorem State.Inv.ofSample {s t : State} (h : s.Inv) {p : PortSample} (ht : sample p s = .next t) : t.Inv := by
  rcases sample_cases p s with ⟨_, hs⟩ | ⟨_, _, hs⟩ | ⟨_, _, _, hs⟩ | ⟨_, _, _, _, hs⟩ | ⟨w, _, _, _, _, hs⟩ <;>
    rw [hs] at ht <;> cases ht
  · exact State.inv_reset.withPort (.inl rfl) none s.host
  · exact h.withPort (by cases p.rspReady <;> simp) p.cmd s.host
  · exact h.withPort (.inr rfl) none s.host
  · exact (h.withPort (.inr rfl) none s.host).ofWord w

/-! ## The statements -/

/-- Settles O48: the port side of a step keeps the invariant, and so does the word a step accepts. -/
theorem stepKeepsTheInvariant : Obligations.StepKeepsTheInvariant := by
  intro s t h ht
  rcases hs : s.host with _ | ⟨p, rest⟩
  · rw [step_nil hs] at ht
    cases ht
    exact h
  · rw [step_cons hs] at ht
    exact (h.withPort (.inr rfl) s.held rest).ofSample ht

/-- Settles O10: a failure is `State.raise`, an effect answers without error, and only INIT's effect touches ERR and
CAUSE. -/
theorem onlyInitAndResetClearErr : Obligations.OnlyInitAndResetClearErr := by
  refine ⟨fun w s t ht => ?_, fun s => ⟨rfl, rfl⟩⟩
  obtain rfl := accept_next_iff.mp ht
  refine ⟨fun hi => ?_, fun d hd => ?_, fun hi d hd => ?_⟩
  · rw [afterWord_ok hi, after_legal rfl]
    exact ⟨rfl, rfl⟩
  · rcases afterWord_fails_or_effect w s with ⟨c, hc, hw⟩ | ⟨i, _, hw⟩ <;> rw [hw] at hd ⊢
    · cases hd
      exact ⟨rfl, hc, rfl⟩
    · obtain ⟨_, hr⟩ := effectOf_rsp i s
      cases hr.symm.trans hd
  · rcases afterWord_fails_or_effect w s with ⟨c, _, hw⟩ | ⟨i, hdec, hw⟩ <;> rw [hw] at hd ⊢
    · cases hd
    · exact effectOf_err_cause (fun h => hi (h ▸ hdec)) s

/-- Settles O11: INIT, FINAL and IDLE by their effects, every other word by the PHASE row of R22. -/
theorem phaseTransitions : Obligations.PhaseTransitions := by
  refine ⟨⟨rfl, rfl, rfl, fun p => by cases p <;> decide⟩, fun s => rfl, fun w s t ht => ?_⟩
  obtain rfl := accept_next_iff.mp ht
  refine ⟨fun hi => ?_, fun hf hp => ?_, fun hf hp => ?_, fun hi => ?_, fun hinit hfinal hidle => ?_⟩
  · rw [afterWord_ok hi, after_legal rfl]
    rfl
  · rw [afterWord_ok hf, after_legal (by simp [legalIn, hp])]
    exact State.finish_phase s
  · rw [afterWord_ok hf, after_illegal (by simp [legalIn, hp])]
    rfl
  · rw [afterWord_ok hi, after_legal rfl]
    rfl
  · by_contra hne
    obtain ⟨i, hi, hchange⟩ := changed_by_effect State.phase (fun _ => rfl) hne
    rcases phase_writers hchange with rfl | rfl | rfl
    · exact hinit hi
    · exact hfinal hi
    · exact hidle hi

/-- Settles O12: a changed element was changed by the effect of a decoded command, which stands in the element's row. -/
theorem stateIsWrittenOnlyByItsCommands : Obligations.StateIsWrittenOnlyByItsCommands := by
  intro w s t ht is message
  obtain rfl := accept_next_iff.mp ht
  refine ⟨fun h => ?_, fun h => ?_, fun h => ?_, fun h => ?_, fun h => ?_, fun h => ?_⟩
  · obtain ⟨i, hi, hchange⟩ := changed_by_effect State.acc (fun _ => rfl) h
    exact (acc_writers hchange).imp (⟨i, hi, ·⟩) (⟨i, hi, ·⟩)
  · obtain ⟨i, hi, hchange⟩ := changed_by_effect State.buf (fun _ => rfl) h
    exact (buf_writers hchange).imp (⟨i, hi, ·⟩) (⟨i, hi, ·⟩)
  · obtain ⟨i, hi, hchange⟩ := changed_by_effect State.fill (fun _ => rfl) h
    exact (fill_writers hchange).imp (⟨i, hi, ·⟩) (⟨i, hi, ·⟩)
  · obtain ⟨i, hi, hchange⟩ := changed_by_effect State.len (fun _ => rfl) h
    exact ⟨i, hi, len_writers hchange⟩
  · obtain ⟨i, hi, hchange⟩ := changed_by_effect State.phase (fun _ => rfl) h
    exact ⟨i, hi, phase_writers hchange⟩
  · obtain ⟨i, hi, hchange⟩ := changed_by_effect State.lenOvf (fun _ => rfl) h
    exact ⟨i, hi, lenOvf_writers hchange⟩

/-- Settles O15: field by field, from the bits of STATUS. -/
theorem statusFields : Obligations.StatusFields := fun s =>
  ⟨status_phase s, status_err s, status_lenOvf s, status_cause s, status_fill s, status_reserved s⟩

/-- Settles O1: the reset state's fields as R34 lists them. -/
theorem resetValues : Obligations.ResetValues :=
  ⟨rfl, fun j => Vector.getElem_replicate j.isLt, rfl, rfl, rfl, rfl, rfl, rfl, rfl⟩

/-- Settles O47: the clauses on the reset values; those on STATUS hold of every state. -/
theorem resetHasTheInvariant : Obligations.ResetHasTheInvariant := State.inv_reset

end Sys2Proof.Machine
end

section
/-! The statements about memory (20_memory.md): the byte order of the buffer and of the digest, reading the buffer after
loading it, the commands that may be repeated, and the order in which the words a host sends take effect. -/

namespace Sys2Proof.Machine

/-! ## Byte order -/

theorem byteOf_wordView (buf : Block) (j : Fin 16) :
    byteOf (wordView buf j) 0 = buf[4 * j.val] ∧ byteOf (wordView buf j) 1 = buf[4 * j.val + 1] ∧
    byteOf (wordView buf j) 2 = buf[4 * j.val + 2] ∧ byteOf (wordView buf j) 3 = buf[4 * j.val + 3] :=
  ⟨byteOf_le32_zero .., byteOf_le32_one .., byteOf_le32_two .., byteOf_le32_three ..⟩

theorem getElem_serialize_word (acc : Accumulator) (k j : Fin 4) :
    (serialize acc)[4 * k.val + j.val] = byteOf acc[k] j.val := by
  rw [getElem_serialize]
  simp only [show (4 * k.val + j.val) / 4 = k.val by omega, show (4 * k.val + j.val) % 4 = j.val by omega,
    Fin.getElem_fin]

/-- The sixteen digest bytes are four groups of four, one group for each accumulator word. -/
theorem toList_serialize (acc : Accumulator) : (serialize acc).toList =
    bytesLe32 acc[0] ++ bytesLe32 acc[1] ++ bytesLe32 acc[2] ++ bytesLe32 acc[3] := by
  calc (serialize acc).toList
      = List.ofFn fun n : Fin (4 * 4) => (serialize acc)[n.val] := by
        rw [← Vector.toList_ofFn, Vector.ofFn_getElem]
    _ = (List.ofFn fun k : Fin 4 => List.ofFn fun j : Fin 4 => byteOf acc[k] j.val).flatten := by
        simp only [List.ofFn_mul', getElem_serialize_word]
    _ = _ := by simp [bytesLe32, List.ofFn_succ]

/-! ## Commands executed twice -/

theorem putWord_putWord_same (buf : Block) (k : Fin 16) (data : Word) :
    putWord (putWord buf k data) k data = putWord buf k data := by
  apply Vector.ext
  intro j hj
  simp only [getElem_putWord]
  split <;> rfl

/-- R58 names four commands that are not idempotent; the effect of every other is. -/
theorem effectOf_effectOf {i : Instr} (habsorb : ∀ b, i ≠ .absorb b) (habsorbw : ∀ d, i ≠ .absorbw d)
    (hfinal : i ≠ .final) (hcompress : i ≠ .compress) (s : State) : effectOf i (effectOf i s) = effectOf i s := by
  cases i with
  | absorb b => exact absurd rfl (habsorb b)
  | absorbw d => exact absurd rfl (habsorbw d)
  | final => exact absurd rfl hfinal
  | compress => exact absurd rfl hcompress
  | loada k d => simp [effectOf, State.complete]
  | loadx k d => simp [effectOf, State.complete, putWord_putWord_same]
  | _ => rfl

/-- Only FINAL leaves a phase in which it may not run again: the others that change PHASE, INIT and IDLE, are legal in
every phase. -/
theorem legalIn_effectOf {i : Instr} {s : State} (hfinal : i ≠ .final) (h : legalIn i s.phase = true) :
    legalIn i (effectOf i s).phase = true := by
  by_cases hp : (effectOf i s).phase = s.phase
  · rw [hp, h]
  · rcases phase_writers hp with rfl | rfl | rfl
    · rfl
    · exact absurd rfl hfinal
    · rfl

theorem after_after {i : Instr} (habsorb : ∀ b, i ≠ .absorb b) (habsorbw : ∀ d, i ≠ .absorbw d)
    (hfinal : i ≠ .final) (hcompress : i ≠ .compress) (s : State) : after i (after i s) = after i s := by
  rcases h : legalIn i s.phase with _ | _
  · rw [after_illegal h]
    exact after_illegal h
  · rw [after_legal h, after_legal (legalIn_effectOf hfinal h), effectOf_effectOf habsorb habsorbw hfinal hcompress]

/-! ## The words a host sends -/

@[simp] theorem foldl_afterWord_held (ws : List Word64) (s : State) :
    (ws.foldl (fun s w => afterWord w s) s).held = s.held := by
  induction ws generalizing s with
  | nil => rfl
  | cons w ws ih => rw [List.foldl_cons, ih, afterWord_held]

/-- Words leave the same state, but for the response and the samples to come, whichever response and samples they found. -/
theorem foldl_afterWord_of_port (ws : List Word64) (s : State) (r : Option Response) (p rest : List PortSample) :
    ({ ws.foldl (fun s w => afterWord w s) { s with rsp := r, host := p } with rsp := none, host := rest } : State) =
      { ws.foldl (fun s w => afterWord w s) s with rsp := none, host := rest } := by
  cases ws with
  | nil => rfl
  | cons w ws =>
    rw [List.foldl_cons, afterWord_port w s r s.held p, foldl_afterWord_port, List.foldl_cons]
    simp

/-- Two samples take one word through the port: it is accepted, and its response is taken (70 R241, R242). -/
theorem run_presenting_taking {s : State} {w : Word64} {rest : List PortSample} (hr : s.rsp = none)
    (hh : s.held = none) (hs : s.host = presenting w :: taking :: rest) :
    Host.Core.run Sys2Proof.core 2 s = .next { afterWord w s with rsp := none, host := rest } := by
  have haccept := step_accept hs hr (.inl hh)
  rw [accept_eq] at haccept
  obtain ⟨r, hrsp⟩ := afterWord_rsp w { s with host := taking :: rest, held := none }
  have htake := step_await (p := taking) (rest := rest) (by simp) rfl hrsp (.inl (by simp))
  rw [run_succ 1 haccept, run_succ 0 htake, afterWord_port w s s.rsp]
  simp [Host.Core.run, taking, hh]

theorem run_hostSends (ws : List Word64) {s : State} {rest : List PortSample} (hr : s.rsp = none)
    (hh : s.held = none) (hs : s.host = hostSends ws ++ rest) :
    Host.Core.run Sys2Proof.core (2 * ws.length) s =
      .next { ws.foldl (fun s w => afterWord w s) s with rsp := none, host := rest } := by
  induction ws generalizing s with
  | nil =>
    obtain rfl : s.host = rest := hs
    rw [← hr]
    rfl
  | cons w ws ih =>
    have hfirst := run_presenting_taking hr hh (rest := hostSends ws ++ rest) hs
    rw [List.length_cons, Nat.mul_succ, Nat.add_comm, run_add 2 _ hfirst, ih rfl (by simp [hh]) rfl,
      foldl_afterWord_of_port, List.foldl_cons]

/-! ## The statements -/

/-- Settles O13: the failure of the phase check repeats itself, and the effect of every command but the four does. -/
theorem repeatedCommandsAreIdempotent : Obligations.RepeatedCommandsAreIdempotent := by
  intro i s t habsorb habsorbw hfinal hcompress ht
  rw [exec_eq] at ht ⊢
  cases ht
  rw [after_after habsorb habsorbw hfinal hcompress]

/-- Settles O31: a word is the sum of its bytes at their weights, and the bytes of the word view are those of the buffer. -/
theorem wordViewIsLittleEndian : Obligations.WordViewIsLittleEndian := by
  intro buf j
  obtain ⟨h0, h1, h2, h3⟩ := byteOf_wordView buf j
  rw [toNat_eq_bytes, h0, h1, h2, h3]

/-- Settles O32: in IDLE both commands have their effects, and the word view reads back what `putWord` wrote. -/
theorem rdxAfterLoadx : Obligations.RdxAfterLoadx := by
  intro k j data s t hidle ht
  rw [exec_eq, after_legal (by simp [legalIn, hidle])] at ht
  cases ht
  refine ⟨_, exec_eq _ _, ?_⟩
  rw [after_legal rfl]
  simp [effectOf, wordView_putWord]

/-- Settles O39: byte by byte, and the bytes as one list. -/
theorem serializeIsLittleEndian : Obligations.SerializeIsLittleEndian := fun acc =>
  ⟨toList_serialize acc, getElem_serialize_word acc⟩

/-- Settles O53: by induction on the words sent, two samples each; a word reads nothing of the port it finds. -/
theorem hostSendsInOrder : Obligations.HostSendsInOrder := by
  intro ws s t rest hr hh hs ht
  rw [acceptAll_eq] at ht
  cases ht
  exact run_hostSends ws hr hh hs

end Sys2Proof.Machine
end

section
/-! The statements about the encoding (30_encoding.md): the decoder and the encoder undo each other, every word is
answered, a step runs the decoded command, and the expansions of the pseudo-instructions ABSORBS and HASH. -/

namespace Sys2Proof.Machine

/-! ## The decoder on encoded words -/

/-- The word of a command passes every check but the index check, and that one exactly for a well-formed command. -/
theorem decode_encode (i : Instr) : decode (encode i) = if i.wellFormed then .ok i else .error .badIndex := by
  unfold encode
  rw [decode_packFields, instrOf_operands]
  simp only [ne_eq, not_true_eq_false, if_false, dataOperand_masked, checkIndex_operand]

/-- What a word that decodes to a command holds in its four fields, and that the command is well formed. -/
theorem fields_of_decode_ok {w : Word64} {i : Instr} (h : decode w = .ok i) :
    opField w = opcode i ∧ idxField w = idxOperand i ∧ rsvdField w = 0 ∧ dataField w = dataOperand i ∧
      i.wellFormed = true := by
  unfold decode at h
  rcases hi : instrOf (opField w) (idxField w) (dataField w) with _ | j <;> simp only [hi] at h
  · cases h
  split_ifs at h with hr hd
  simp only [ne_eq, not_not] at hr hd
  obtain ⟨rfl, hnone, hsome⟩ := checkIndex_ok h
  obtain ⟨hop, hidx, hdata⟩ := instrOf_some hi
  have hidx' : idxField w = idxOperand i := by
    by_cases hw : idxWidth i = none
    · rw [hnone hw, idxOperand_of_noIndex hw]
    · exact hidx hw
  exact ⟨hop, hidx', hr, hdata hd, (wellFormed_iff i).mpr fun n hn => hidx' ▸ hsome n hn⟩

/-! ## ABSORBS: a word absorbs the bytes it is made of (30 R81, 40_padding_encoder.md R107) -/

theorem after_absorb {s : State} (h : s.phase = .absorb) (b : Byte) :
    after (.absorb b) s = (s.absorbByte b).complete 0 := after_legal (by simp [legalIn, h])

/-- One ABSORBW leaves the state that four ABSORBs leave. -/
theorem after_absorbw_le32 {s : State} (h : s.phase = .absorb) (b0 b1 b2 b3 : Byte) :
    after (.absorbw (le32 b0 b1 b2 b3)) s =
      after (.absorb b3) (after (.absorb b2) (after (.absorb b1) (after (.absorb b0) s))) := by
  rw [after_legal (by simp [legalIn, h])]
  simp only [effectOf, State.absorbWord, byteOf_le32_zero, byteOf_le32_one, byteOf_le32_two, byteOf_le32_three,
    after_absorb, h, State.complete_phase, State.absorbByte_phase]
  rfl

theorem phase_after_absorb {s : State} (h : s.phase = .absorb) (b : Byte) : (after (.absorb b) s).phase = .absorb := by
  simp [after_absorb h, h]

/-- The expansion of ABSORBS and one ABSORB per byte leave the same state, in the groups of four bytes of the
expansion's own recursion. -/
theorem foldl_absorbsCommands (text : List Byte) {s : State} (h : s.phase = .absorb) :
    (absorbsCommands text).foldl (fun s i => after i s) s = (text.map .absorb).foldl (fun s i => after i s) s := by
  induction text using absorbsCommands.induct generalizing s with
  | case1 b0 b1 b2 b3 rest ih =>
    have h' := phase_after_absorb (phase_after_absorb (phase_after_absorb (phase_after_absorb h b0) b1) b2) b3
    rw [absorbsCommands, List.foldl_cons, after_absorbw_le32 h, ih h']
    rfl
  | case2 rest hshort =>
    rw [absorbsCommands]
    exact hshort

/-! ## HASH: the message relation from INIT to FINAL (40 R110, R111) -/

theorem MessageInv.complete {m : List Byte} {s : State} (h : MessageInv m s) (d : Word) :
    MessageInv m (s.complete d) := h.congr rfl rfl rfl rfl rfl rfl

/-- One ABSORB per byte appends the text to the message. -/
theorem MessageInv.absorbs {m : List Byte} {s : State} (h : MessageInv m s) (text : List Byte) :
    MessageInv (m ++ text) ((text.map .absorb).foldl (fun s i => after i s) s) := by
  induction text generalizing m s with
  | nil => simpa using h
  | cons b text ih =>
    have hb : MessageInv (m ++ [b]) (after (.absorb b) s) := by
      rw [after_absorb h.phase]
      exact (h.absorbByte b).complete 0
    simpa using ih hb

/-- The accumulator FINAL leaves is that of the padded message: its full blocks are in ACC already, and FINAL compresses
the one or two blocks that the padding completes. -/
theorem MessageInv.finish_acc {m : List Byte} {s : State} (h : MessageInv m s) : s.finish.acc = digestAcc m := by
  have hfill := h.fill
  have hlt := s.fill.isLt
  obtain ⟨_, hz⟩ := padZeros_spec m.length
  have hlen := length_pad m
  unfold State.finish digestAcc blocks
  split
  · rename_i hf
    have hn : (pad m).length / 64 = m.length / 64 + 1 := by omega
    simp only [State.finishOne, h.lastBlock_one hf, h.acc, hn, List.range_succ, List.map_append, List.foldl_append,
      map_blockAt_pad, List.map_cons, List.map_nil, List.foldl_cons, List.foldl_nil]
  · rename_i hf
    have hf' : 56 ≤ s.fill.toNat := by omega
    have hn : (pad m).length / 64 = m.length / 64 + 1 + 1 := by omega
    simp only [State.finishTwo, h.firstBlock_two hf', h.lastBlock_two hf', h.acc, hn, List.range_succ, List.map_append,
      List.foldl_append, map_blockAt_pad, List.map_cons, List.map_nil, List.foldl_cons, List.foldl_nil]

theorem serialize_digestAcc {m : List Byte} {d : Vector Byte 16} (h : md5 m = some d) :
    serialize (digestAcc m) = d := by
  unfold md5 at h
  split at h
  · exact Option.some.inj h
  · cases h

/-! ## The statements -/

/-- Settles O4: `decode_encode`, for the two values of well-formedness. -/
theorem decodeReadsBackEveryCommand : Obligations.DecodeReadsBackEveryCommand := by
  refine fun i => ⟨fun h => ?_, fun h => ?_⟩ <;> simp [decode_encode, h]

/-- Settles O5: the four fields of a word that decodes are those of its command, and a word is the packing of its
fields. -/
theorem oneWordPerCommand : Obligations.OneWordPerCommand := by
  intro w i h
  obtain ⟨hop, hidx, hrsvd, hdata, hwf⟩ := fields_of_decode_ok h
  exact ⟨hwf, by rw [encode, ← hop, ← hidx, ← hrsvd, ← hdata, packFields_fields]⟩

/-- Settles O9: the three things an accepted word can do; only the effect of a command answers without error. -/
theorem everyWordIsAnswered : Obligations.EveryWordIsAnswered := by
  intro w s
  obtain ⟨r, hr⟩ := afterWord_rsp w s
  refine ⟨afterWord w s, r, accept_eq w s, hr, afterWord_held w s, afterWord_host w s, ?_⟩
  rcases afterWord_cases w s with ⟨e, he, hw⟩ | ⟨i, hi, hl, hw⟩ | ⟨i, hi, hl, hw⟩ <;> rw [hw] at hr
  · cases hr
    simp [he]
  · cases hr
    simp [hi, hl]
  · obtain ⟨d, hd⟩ := effectOf_rsp i s
    cases hd.symm.trans hr
    simp [hi, hl]

/-- Settles O46: both lists of commands leave the same state, and the message relation leads from INIT through the text
to the accumulator of FINAL. -/
theorem absorbsExpansion : Obligations.AbsorbsExpansion := by
  refine ⟨fun text s h => ⟨_, execAll_eq _ s, ?_⟩, fun text s => ⟨_, execAll_eq _ s, fun d hd => ?_⟩⟩
  · rw [execAll_eq, foldl_absorbsCommands text h]
  · have hinit : MessageInv [] (after .init s) := (messageInv_open s).complete 0
    have htext : MessageInv text ((absorbsCommands text).foldl (fun s i => after i s) (after .init s)) := by
      rw [foldl_absorbsCommands text hinit.phase]
      exact hinit.absorbs text
    rw [hashCommands, List.foldl_cons, List.foldl_append, List.foldl_cons, List.foldl_nil,
      after_legal (by simp [legalIn, htext.phase])]
    exact (congrArg serialize htext.finish_acc).trans (serialize_digestAcc hd)

/-- Settles O3: the words of R82, read by the decoder. -/
theorem specWordsDecode : Obligations.SpecWordsDecode := by
  unfold Obligations.SpecWordsDecode
  decide

/-- Settles O49: the step accepts the word, and accepting is `exec` of what it decodes to or the decoder's failure. -/
theorem stepRunsTheDecodedCommand : Obligations.StepRunsTheDecodedCommand := by
  intro s w ready rest hs hr hb
  rw [step_accept hs hr hb]
  refine ⟨fun i hi => ?_, fun e he => ?_⟩
  · rw [accept_eq, afterWord_ok hi, exec_eq]
  · rw [accept_eq, afterWord_error he]
    rfl

end Sys2Proof.Machine
end

section
/-! The statements about the padding encoder (40_padding_encoder.md): Pad and Blocks, the message commands, the relation
between a message and the state that absorbs it, and the digest that INIT, the words of a message and FINAL leave. -/

namespace Sys2Proof.Machine

/-! ## Blocks and Pad (40 section 1) -/

@[simp] theorem getElem_blockAt (p : List Byte) (n j : Nat) (hj : j < 64) :
    (blockAt p n)[j] = p.getD (64 * n + j) 0 := by
  simp [blockAt]

theorem getElem?_eq_some_getD {p : List Byte} {i : Nat} (hi : i < p.length) : p[i]? = some (p.getD i 0) := by
  rw [List.getElem?_eq_getElem hi, List.getD_eq_getElem _ _ hi]

theorem getElem?_blocks {p : List Byte} {n : Nat} (h : n < p.length / 64) :
    (blocks p)[n]? = some (blockAt p n) := by
  simp [blocks, h]

/-- The first k blocks hold the first 64k bytes, in order. -/
theorem flatMap_toList_blockAt (p : List Byte) (k : Nat) (h : 64 * k ≤ p.length) :
    ((List.range k).flatMap fun n => (blockAt p n).toList) = p.take (64 * k) := by
  induction k with
  | zero => simp
  | succ k ih =>
    rw [List.range_succ, List.flatMap_append, ih (by omega), List.flatMap_singleton, toList_blockAt p k (by omega),
      Nat.mul_succ, List.take_add]

theorem take_pad (m : List Byte) : (pad m).take m.length = m := by
  simp [pad]

theorem getD_pad_marker (m : List Byte) : (pad m).getD m.length 0 = 0x80 := by
  rw [getD_pad m _ (by rw [length_pad]; omega), if_neg (Nat.lt_irrefl _), if_pos rfl]

/-- What stands between the marker and the length field is zero. -/
theorem getD_pad_zeros (m : List Byte) {i : Nat} (hm : m.length < i) (hi : i + 8 < (pad m).length) :
    (pad m).getD i 0 = 0 := by
  have hlen := length_pad m
  rw [getD_pad m i (by omega), if_neg (by omega), if_neg (by omega), if_pos (by omega)]

/-- The length field is the last eight bytes. -/
theorem drop_pad (m : List Byte) : (pad m).drop ((pad m).length - 8) = bytesLe64 (BitVec.ofNat 64 (m.length * 8)) := by
  rw [show pad m = (m ++ [0x80] ++ zeros (padZeros m.length)) ++ bytesLe64 (BitVec.ofNat 64 (m.length * 8)) from rfl,
    List.length_append, show (bytesLe64 (BitVec.ofNat 64 (m.length * 8))).length = 8 from by simp [bytesLe64],
    Nat.add_sub_cancel, List.drop_left]

/-- The number of blocks of a padded message, as 40 R101 gives it. -/
theorem length_pad_div (m : List Byte) : (pad m).length / 64 = (m.length + 8) / 64 + 1 := by
  obtain ⟨hlt, hmod⟩ := padZeros_spec m.length
  have hlen := length_pad m
  omega

/-- The message's full blocks lead the blocks of the padded message. -/
theorem take_blocks_pad (m : List Byte) : (blocks (pad m)).take (m.length / 64) = fullBlocks m := by
  have hdiv := length_pad_div m
  rw [blocks, ← List.map_take, List.take_range, Nat.min_eq_left (by omega), map_blockAt_pad]

/-! ## absorb_byte and the blocks of FINAL, on numbers (40 section 2) -/

/-- absorb_byte as R105 writes it. -/
theorem absorbByte_eq (b : Byte) (s : State) : s.absorbByte b = { s with
    buf := s.buf.set s.fill.toNat b s.fill.isLt
    lenOvf := if 2 ^ 64 ≤ s.len.toNat + 8 then true else s.lenOvf
    len := BitVec.ofNat 64 ((s.len.toNat + 8) % 2 ^ 64)
    acc := if s.fill = 63 then compress s.acc (s.buf.set s.fill.toNat b s.fill.isLt) else s.acc
    fill := if s.fill = 63 then 0 else BitVec.ofNat 6 (s.fill.toNat + 1) } := by
  have hlen : s.len + 8 = BitVec.ofNat 64 ((s.len.toNat + 8) % 2 ^ 64) := by
    rw [← BitVec.toNat_inj]
    simp
  have hfill : s.fill + 1 = BitVec.ofNat 6 (s.fill.toNat + 1) := by
    rw [← BitVec.toNat_inj]
    simp
  have hovf : (s.lenOvf || lenWraps s.len) = if 2 ^ 64 ≤ s.len.toNat + 8 then true else s.lenOvf := by
    unfold lenWraps
    split <;> rename_i h <;> simp only [h, decide_true, decide_false, Bool.or_true, Bool.or_false]
  unfold State.absorbByte
  rw [hlen, hfill, hovf]

/-- A byte that does not complete the block leaves ACC and moves FILL on. -/
theorem absorbByte_within {s : State} (h : s.fill.toNat < 63) (b : Byte) :
    (s.absorbByte b).acc = s.acc ∧ (s.absorbByte b).fill.toNat = s.fill.toNat + 1 := by
  have hne : s.fill ≠ 63 := fun he => by simp [he] at h
  refine ⟨if_neg hne, ?_⟩
  simp only [State.absorbByte_fill, BitVec.toNat_add, BitVec.ofNat_eq_ofNat, BitVec.toNat_ofNat]
  omega

/-- A word that does not complete the block leaves ACC (R107). -/
theorem absorbWord_acc {s : State} (h : s.fill.toNat < 60) (data : Word) : (s.absorbWord data).acc = s.acc := by
  obtain ⟨h0, hf0⟩ := absorbByte_within (h.trans (by decide)) (byteOf data 0)
  obtain ⟨h1, hf1⟩ := absorbByte_within (hf0.trans_lt (by omega)) (byteOf data 1)
  obtain ⟨h2, hf2⟩ := absorbByte_within (hf1.trans_lt (by omega)) (byteOf data 2)
  obtain ⟨h3, -⟩ := absorbByte_within (hf2.trans_lt (by omega)) (byteOf data 3)
  rw [State.absorbWord, h3, h2, h1, h0]

/-- Four ABSORB commands of the bytes of a word leave the state of one ABSORBW. -/
theorem foldl_absorb_bytes {s : State} (h : s.phase = .absorb) (data : Word) :
    [Instr.absorb (byteOf data 0), .absorb (byteOf data 1), .absorb (byteOf data 2), .absorb (byteOf data 3)].foldl
      (fun s i => after i s) s = after (.absorbw data) s := by
  have hword := after_absorbw_le32 h (byteOf data 0) (byteOf data 1) (byteOf data 2) (byteOf data 3)
  rw [le32_bytesOf] at hword
  exact hword.symm

/-- The bytes of a buffer marked at FILL and cleared from there up to hi. -/
theorem getElem_marked_cleared (s : State) (hi j : Nat) (hj : j < 64) :
    (zeroRange s.markedBuf (s.fill.toNat + 1) hi)[j] =
      if j < s.fill.toNat then s.buf[j] else if j = s.fill.toNat then 0x80 else if j < hi then 0 else s.buf[j] := by
  rw [getElem_zeroRange, getElem_markedBuf]
  rcases Nat.lt_trichotomy j s.fill.toNat with hlt | heq | hgt
  · rw [if_neg (by omega), if_neg (by omega), if_pos hlt]
  · rw [if_neg (by omega), if_pos heq, if_neg (by omega), if_pos heq]
  · simp only [show s.fill.toNat + 1 ≤ j from hgt, hgt.ne', hgt.not_gt, true_and, if_false]

/-- The one block FINAL compresses when the length fits, byte by byte (R108). -/
theorem onlyBlock_eq {s : State} (h : s.fill.toNat ≤ 55) :
    putLength (zeroRange s.markedBuf (s.fill.toNat + 1) 56) s.len = Vector.ofFn fun j : Fin 64 =>
      if j.val < s.fill.toNat then s.buf[j] else if j.val = s.fill.toNat then 0x80
      else if j.val < 56 then 0x00 else byteOf64 s.len (j.val - 56) := by
  apply Vector.ext
  intro j hj
  rw [Vector.getElem_ofFn, getElem_putLength, getElem_marked_cleared]
  dsimp only
  by_cases hlen : 56 ≤ j
  · rw [if_pos hlen, if_neg (by omega), if_neg (by omega), if_neg (by omega)]
  · simp only [hlen, show j < 56 by omega, if_true, if_false, Fin.getElem_fin]

/-- The block FINAL compresses first when the length does not fit. -/
theorem firstBlock_eq (s : State) :
    zeroRange s.markedBuf (s.fill.toNat + 1) 64 = Vector.ofFn fun j : Fin 64 =>
      if j.val < s.fill.toNat then s.buf[j] else if j.val = s.fill.toNat then 0x80 else 0x00 := by
  apply Vector.ext
  intro j hj
  rw [Vector.getElem_ofFn, getElem_marked_cleared, if_pos hj, Fin.getElem_fin]

/-- The block FINAL compresses second then. -/
theorem secondBlock_eq (buf : Block) (len : Word64) :
    putLength (zeroRange buf 0 56) len = Vector.ofFn fun j : Fin 64 =>
      if j.val < 56 then 0x00 else byteOf64 len (j.val - 56) := by
  apply Vector.ext
  intro j hj
  rw [Vector.getElem_ofFn, getElem_putLength, getElem_zeroRange]
  dsimp only
  by_cases hlen : 56 ≤ j
  · rw [if_pos hlen, if_neg (by omega)]
  · rw [if_neg hlen, if_pos (by omega), if_pos (by omega)]

theorem after_final {s : State} (h : s.phase = .absorb) : after .final s = s.finish.complete 0 :=
  after_legal (by simp [legalIn, h])

/-! ## The message relation over commands and words (40 R110) -/

theorem MessageInv.raise {m : List Byte} {s : State} (h : MessageInv m s) (c : Cause) :
    MessageInv m (s.raise c) := h.congr rfl rfl rfl rfl rfl rfl

/-- The bytes a command contributes to the open message. -/
def bytesCarried : Instr → List Byte
  | .absorb b => [b]
  | .absorbw data => bytesLe32 data
  | _ => []

theorem carriedBy_of_ok {w : Word64} {i : Instr} (h : decode w = .ok i) : carriedBy w = bytesCarried i := by
  unfold carriedBy
  rw [h]
  cases i <;> rfl

theorem carriedBy_of_error {w : Word64} {e : DecodeError} (h : decode w = .error e) : carriedBy w = [] := by
  unfold carriedBy
  rw [h]

/-- In ABSORB, ABSORB and ABSORBW append their bytes, the commands of the other phases fail, and those that are legal
everywhere touch nothing of the relation but for INIT and IDLE. -/
theorem MessageInv.ofCommand {m : List Byte} {s : State} (h : MessageInv m s) {i : Instr} (hinit : i ≠ .init)
    (hfinal : i ≠ .final) (hidle : i ≠ .idle) : MessageInv (m ++ bytesCarried i) (after i s) := by
  cases i with
  | init => exact absurd rfl hinit
  | final => exact absurd rfl hfinal
  | idle => exact absurd rfl hidle
  | absorb b =>
    rw [after_absorb h.phase]
    exact (h.absorbByte b).complete 0
  | absorbw data =>
    rw [after_legal (by simp [legalIn, h.phase])]
    exact (h.absorbWord data).complete 0
  | rddig _ | rdhex _ | loada _ _ | loadx _ _ | compress =>
    rw [after_illegal (by simp [legalIn, h.phase])]
    simp only [bytesCarried, List.append_nil]
    exact h.raise .badPhase
  | nop | rdacc _ | rdstat | rdlen _ | rdx _ =>
    rw [after_legal rfl]
    simp only [bytesCarried, List.append_nil]
    exact h.complete _

theorem MessageInv.ofWord {m : List Byte} {s : State} (h : MessageInv m s) {w : Word64} (hw : keepsOpen w) :
    MessageInv (m ++ carriedBy w) (afterWord w s) := by
  rcases hd : decode w with e | i
  · rw [afterWord_error hd, carriedBy_of_error hd, List.append_nil]
    exact h.raise _
  · obtain ⟨hinit, hfinal, hidle⟩ := hw
    rw [afterWord_ok hd, carriedBy_of_ok hd]
    exact h.ofCommand (fun he => hinit (he ▸ hd)) (fun he => hfinal (he ▸ hd)) (fun he => hidle (he ▸ hd))

theorem MessageInv.ofWords {ws : List Word64} {m : List Byte} {s : State} (h : MessageInv m s)
    (hws : ∀ w ∈ ws, keepsOpen w) :
    MessageInv (m ++ ws.flatMap carriedBy) (ws.foldl (fun s w => afterWord w s) s) := by
  induction ws generalizing m s with
  | nil => simpa using h
  | cons w ws ih =>
    rw [List.flatMap_cons, ← List.append_assoc]
    exact ih (h.ofWord (hws w (by simp))) fun w' hw' => hws w' (by simp [hw'])

/-! ## The words of INIT and FINAL -/

theorem afterWord_encode_init (s : State) : afterWord (encode .init) s = s.open.complete 0 := by
  rw [afterWord_ok (decode_encode .init), after_legal rfl]
  rfl

theorem afterWord_encode_final {s : State} (h : s.phase = .absorb) :
    afterWord (encode .final) s = s.finish.complete 0 := by
  rw [afterWord_ok (decode_encode .final), after_final h]

/-! ## The statements -/

/-- Settles O42: INIT opens the empty message, and `MessageInv.ofWord` is the step. -/
theorem messageIsTracked : Obligations.MessageIsTracked := by
  refine ⟨fun s t ht => ?_, fun m w s t h hw ht => ?_⟩
  · rw [exec_eq, after_legal rfl] at ht
    cases ht
    exact (messageInv_open s).complete 0
  · obtain rfl := accept_next_iff.mp ht
    exact h.ofWord hw

/-- Settles O44: the relation leads from INIT through the words to FINAL, whose accumulator is that of the padded
message; in DONE the reads give its digest. -/
theorem digestOfEveryMessage : Obligations.DigestOfEveryMessage := by
  intro ws s hws m
  have hm : MessageInv m (ws.foldl (fun s w => afterWord w s) (s.open.complete 0)) :=
    ((messageInv_open s).complete 0).ofWords hws
  refine ⟨_, acceptAll_eq _ s, ?_⟩
  rw [List.foldl_cons, List.foldl_append, List.foldl_cons, List.foldl_nil, afterWord_encode_init,
    afterWord_encode_final hm.phase]
  generalize ws.foldl (fun s w => afterWord w s) (s.open.complete 0) = u at hm
  have hacc : serialize (u.finish.complete 0).acc = serialize (digestAcc m) := congrArg serialize hm.finish_acc
  refine ⟨State.finish_phase u, ?_, hacc, fun d hd => ?_⟩
  · rw [State.complete_lenOvf, State.finish_lenOvf, ← Bool.not_eq_true, hm.lenOvf, Nat.not_le]
  · have hdigest := hacc.trans (serialize_digestAcc hd)
    refine ⟨hdigest, fun n => ?_, fun n => ?_⟩
    · rw [exec_eq, after_legal (by simp [legalIn]), effectOf, hdigest]
      simp only [digestIndex_ofNat]
      rfl
    · rw [exec_eq, after_legal (by simp [legalIn]), effectOf, hdigest]
      simp only [hexIndex_ofNat]
      rfl

/-- Settles O17: INIT is legal in every phase. -/
theorem initOpensAMessage : Obligations.InitOpensAMessage := by
  refine ⟨wordsOf_of_tables _ _ _ _ fun _ _ => ⟨rfl, rfl, rfl⟩, fun s => ⟨_, exec_eq _ s, ?_⟩⟩
  rw [after_legal rfl]
  exact ⟨rfl, by simp [State.status, effectOf, Phase.code, Cause.code]⟩

/-- Settles O18: `absorbByte_eq`, and the phase check. -/
theorem absorbAppendsOneByte : Obligations.AbsorbAppendsOneByte := by
  refine ⟨wordsOf_of_tables _ _ _ _ fun _ _ => ⟨rfl, rfl, rfl⟩, fun b s => ⟨fun h => ?_, fun h => ?_⟩⟩
  · rw [exec_eq, after_absorb h, absorbByte_eq]
    rfl
  · rw [exec_eq, after_illegal (by simp [legalIn, h])]

/-- Settles O19: absorb_byte four times, each as `absorbByte_eq` says. -/
theorem absorbwIsFourAbsorbs : Obligations.AbsorbwIsFourAbsorbs := by
  refine ⟨wordsOf_of_tables _ _ _ _ fun _ _ => ⟨rfl, rfl, rfl⟩, ?_⟩
  intro data s absorb
  refine ⟨fun h => ?_, fun h => ?_⟩
  · have habsorb : absorb = State.absorbByte := by
      funext b u
      exact (absorbByte_eq b u).symm
    have hafter : after (.absorbw data) s = (s.absorbWord data).complete 0 := after_legal (by simp [legalIn, h])
    refine ⟨(s.absorbWord data).complete 0, by rw [exec_eq, hafter], by rw [habsorb]; rfl, ?_, ?_, ?_, ?_, ?_⟩
    · simp
    · simp
    · exact s.absorbWord_lenOvf data
    · exact fun hfill => absorbWord_acc hfill data
    · rw [execAll_eq, ← hafter, ← foldl_absorb_bytes h]
      rfl
  · rw [exec_eq, after_illegal (by simp [legalIn, h])]

/-- Settles O20: which of the two paddings FINAL takes, and their blocks. -/
theorem finalPadsAndCompresses : Obligations.FinalPadsAndCompresses := by
  refine ⟨wordsOf_of_tables _ _ _ _ fun _ _ => ⟨rfl, rfl, rfl⟩, ?_⟩
  intro s f lenByte only first second
  refine ⟨fun h hf => ?_, fun h hf => ?_, fun h => ?_⟩
  · rw [exec_eq, after_final h, State.finish, if_pos hf, State.finishOne, onlyBlock_eq hf]
    rfl
  · rw [exec_eq, after_final h, State.finish, if_neg (show ¬ f ≤ 55 by omega), State.finishTwo, firstBlock_eq,
      secondBlock_eq]
    rfl
  · rw [exec_eq, after_illegal (by simp [legalIn, h])]

/-- Settles O36: the bytes of Pad, item by item. -/
theorem padContract : Obligations.PadContract := by
  intro m p
  obtain ⟨hlt, hmod⟩ := padZeros_spec m.length
  have hlen : p.length = m.length + 9 + padZeros m.length := length_pad m
  refine ⟨take_pad m, ?_, fun j hm hj => ?_, ?_, ?_, ?_, drop_pad m⟩
  · rw [getElem?_eq_some_getD (show m.length < p.length by omega), getD_pad_marker]
  · rw [getElem?_eq_some_getD (show j < p.length by omega), getD_pad_zeros m hm hj]
  · omega
  · omega
  · omega

/-- Settles O37: the block count from the length, and the marker at byte L of the padded message. -/
theorem padBlockCount : Obligations.PadBlockCount := by
  intro m
  obtain ⟨hlt, hmod⟩ := padZeros_spec m.length
  have hlen := length_pad m
  have hdiv := length_pad_div m
  simp only [length_blocks]
  refine ⟨by omega, by omega, hdiv, by omega, by omega, ⟨_, getElem?_blocks (by omega), ?_⟩, take_blocks_pad m⟩
  rw [getElem_blockAt, Nat.div_add_mod, getD_pad_marker]

/-- Settles O38: all blocks together are the first 64 (|P| / 64) bytes, which is all of P. -/
theorem blocksCutInOrder : Obligations.BlocksCutInOrder := by
  intro p hp
  refine ⟨length_blocks p, ?_, fun n j b hb => ?_⟩
  · rw [blocks, List.flatMap_map, flatMap_toList_blockAt p _ (by omega), List.take_of_length_le (by omega)]
  · have hn : n < p.length / 64 := by
      obtain ⟨h, -⟩ := List.getElem?_eq_some_iff.mp hb
      simpa using h
    obtain rfl : blockAt p n = b := Option.some.inj ((getElem?_blocks hn).symm.trans hb)
    rw [Fin.getElem_fin, getElem_blockAt, getElem?_eq_some_getD (by omega)]

/-- Settles O43: `MessageInv.finish_acc`; FINAL leaves LEN. -/
theorem finalGivesTheDigest : Obligations.FinalGivesTheDigest := by
  intro m s h
  refine ⟨_, exec_eq _ _, ?_⟩
  rw [after_final h.phase]
  exact ⟨State.finish_phase s, (State.finish_len s).trans h.len, h.finish_acc⟩

/-- Settles O45: INIT leaves the same state from both but for the port's held word and samples, which no word reads. -/
theorem initForgetsThePast : Obligations.InitForgetsThePast := by
  intro ws s s'
  refine ⟨_, _, acceptAll_eq _ s, acceptAll_eq _ s', ?_⟩
  rw [List.foldl_cons, List.foldl_cons, afterWord_encode_init, afterWord_encode_init, ← foldl_afterWord_port]
  rfl

end Sys2Proof.Machine
end

section
/-! The statements about the block compressor (41_block_compressor.md): the compression function as 64 rounds, its
rotations and the message words its rounds read, and the commands that load, run and read the compressor. -/

namespace Sys2Proof.Machine

/-! ## The rounds (41 section 1) -/

/-- The working registers before round i of Compress(ACC, BUF); after the last round, for i = 64 (41 R130). -/
def workingBefore (acc : Accumulator) (buf : Block) (i : Nat) : Working :=
  ((List.finRange 64).take i).foldl (roundStep buf) (startWorking acc)

theorem workingBefore_succ (acc : Accumulator) (buf : Block) (i : Fin 64) :
    workingBefore acc buf (i.val + 1) = roundStep buf (workingBefore acc buf i.val) i := by
  rw [workingBefore, List.take_succ_eq_append_getElem (by simp), List.foldl_append, ← workingBefore]
  simp

/-- Compress adds the registers after the last round to the accumulator (41 R135). -/
theorem compress_eq (acc : Accumulator) (buf : Block) : compress acc buf =
    let w := workingBefore acc buf 64
    #v[acc[0] + w.a, acc[1] + w.b, acc[2] + w.c, acc[3] + w.d] := by
  have hrounds : workingBefore acc buf 64 = rounds buf (startWorking acc) := by
    rw [workingBefore, List.take_of_length_le (by simp), rounds]
  rw [hrounds]
  rfl

/-- f with the quartiles bounded as 41 R132 bounds them. -/
theorem roundFn_eq (i : Fin 64) (b c d : Word) : roundFn i b c d =
    if i.val ≤ 15 then (b &&& c) ||| (~~~b &&& d)
    else if i.val ≤ 31 then (d &&& b) ||| (~~~d &&& c)
    else if i.val ≤ 47 then b ^^^ c ^^^ d
    else c ^^^ (b ||| ~~~d) := by
  simp only [roundFn, Nat.lt_succ_iff]

/-- g with the quartiles bounded as 41 R133 bounds them. -/
theorem msgIndexNat_eq (i : Nat) : msgIndexNat i =
    if i ≤ 15 then i else if i ≤ 31 then (5 * i + 1) % 16
    else if i ≤ 47 then (3 * i + 5) % 16 else (7 * i) % 16 := by
  simp only [msgIndexNat, Nat.lt_succ_iff]

/-- One round from the values of its f and its g (41 R134). -/
theorem roundStep_eq (buf : Block) (w : Working) {i : Fin 64} {f : Word} {g : Nat}
    (hf : roundFn i w.b w.c w.d = f) (hg : msgIndexNat i.val = g) :
    ∃ hlt : g < 16, roundStep buf w i =
      let temp := f + w.a + tableK[i] + wordView buf ⟨g, hlt⟩
      { a := w.d, b := w.b + rotl temp (tableS i), c := w.b, d := w.c } := by
  subst hf hg
  exact ⟨(msgIndex i).isLt, rfl⟩

/-! ## The message word of a round (41 R133) -/

/-- The round of quartile q that reads word g: g of R133 is linear in the round with an odd factor, and 13, 11 and 7 are
the inverses of the factors 5, 3 and 7 modulo 16. -/
def roundReading (q : Fin 4) (g : Nat) : Nat :=
  16 * q.val + #v[g, 13 * g + 3, 11 * g + 9, 7 * g][q] % 16

theorem roundReading_div (q : Fin 4) (g : Nat) : roundReading q g / 16 = q.val := by
  unfold roundReading
  omega

theorem msgIndexNat_eq_iff {q : Fin 4} {i g : Nat} (hi : i / 16 = q.val) (hg : g < 16) :
    msgIndexNat i = g ↔ i = roundReading q g := by
  unfold msgIndexNat
  match q with
  | 0 =>
    have hi : i / 16 = 0 := hi
    rw [if_pos (by omega)]
    show i = g ↔ i = 16 * 0 + g % 16
    omega
  | 1 =>
    have hi : i / 16 = 1 := hi
    rw [if_neg (by omega), if_pos (by omega)]
    show (5 * i + 1) % 16 = g ↔ i = 16 * 1 + (13 * g + 3) % 16
    omega
  | 2 =>
    have hi : i / 16 = 2 := hi
    rw [if_neg (by omega), if_neg (by omega), if_pos (by omega)]
    show (3 * i + 5) % 16 = g ↔ i = 16 * 2 + (11 * g + 9) % 16
    omega
  | 3 =>
    have hi : i / 16 = 3 := hi
    rw [if_neg (by omega), if_neg (by omega), if_neg (by omega)]
    show 7 * i % 16 = g ↔ i = 16 * 3 + 7 * g % 16
    omega

/-! ## Rotations (41 R136) -/

theorem rotl_eq_rotateLeft (x : Word) {s : Nat} (hs : s ≤ 31) : rotl x s = x.rotateLeft s := by
  rw [BitVec.rotateLeft_def, Nat.mod_eq_of_lt (by omega), rotl]

theorem getLsbD_rotl (x : Word) {s : Nat} (hs : s ≤ 31) {j : Nat} (hj : j < 32) :
    (rotl x s).getLsbD ((j + s) % 32) = x.getLsbD j := by
  rw [rotl_eq_rotateLeft x hs, BitVec.getLsbD_rotateLeft_of_le (by omega)]
  by_cases h : j + s < 32
  · simp [Nat.mod_eq_of_lt h, h]
  · have hwrap : (j + s) % 32 = j + s - 32 := by omega
    simp [hwrap, show j + s - 32 < s by omega, show 32 - s + (j + s - 32) = j by omega]

/-! ## The commands (41 section 3) -/

/-- A command that only IDLE admits: its effect there, the failure of the phase check elsewhere. -/
theorem exec_of_idleOnly {i : Instr} (hi : ∀ p, legalIn i p = (p == .idle)) (s : State) :
    (s.phase = .idle → exec i s = .next (effectOf i s)) ∧
    (s.phase ≠ .idle → exec i s = .next (s.raise .badPhase)) := by
  refine ⟨fun h => ?_, fun h => ?_⟩
  · rw [exec_eq, after_legal (by simp [hi, h])]
  · rw [exec_eq, after_illegal (by simp [hi, h])]

theorem set_acc_eq_ofFn (acc : Accumulator) (k : Fin 4) (data : Word) :
    acc.set k.val data = Vector.ofFn fun j => if j = k then data else acc[j] := by
  apply Vector.ext
  intro j hj
  simp [Vector.getElem_set, Fin.ext_iff, eq_comm]

theorem putWord_eq_ofFn (buf : Block) (k : Fin 16) (data : Word) : putWord buf k data =
    Vector.ofFn fun j => if j.val / 4 = k.val then byteOf data (j.val % 4) else buf[j] := by
  apply Vector.ext
  intro j hj
  simp [getElem_putWord]

/-! ## The statements -/

/-- Settles O27: in IDLE `Vector.set` writes word k and no other. -/
theorem loadaWritesOneWord : Obligations.LoadaWritesOneWord := by
  refine ⟨wordsOf_of_tables _ _ _ _ fun _ _ => ⟨rfl, rfl, rfl⟩, fun k data s => ?_⟩
  obtain ⟨hidle, hother⟩ := exec_of_idleOnly (i := .loada (BitVec.ofNat 8 k.val) data) (fun _ => rfl) s
  refine ⟨fun h => ?_, hother⟩
  rw [hidle h]
  simp only [effectOf, accIndex_ofNat, set_acc_eq_ofFn]
  rfl

/-- Settles O28: in IDLE `putWord` writes the bytes of word k and no other. -/
theorem loadxWritesFourBytes : Obligations.LoadxWritesFourBytes := by
  refine ⟨wordsOf_of_tables _ _ _ _ fun _ _ => ⟨rfl, rfl, rfl⟩, fun k data s => ?_⟩
  obtain ⟨hidle, hother⟩ := exec_of_idleOnly (i := .loadx (BitVec.ofNat 8 k.val) data) (fun _ => rfl) s
  refine ⟨fun h => ?_, hother⟩
  rw [hidle h, effectOf, wordIndex_ofNat, putWord_eq_ofFn]
  rfl

/-- Settles O29: IDLE alone admits COMPRESS. -/
theorem compressRunsOnce : Obligations.CompressRunsOnce :=
  ⟨wordsOf_of_tables _ _ _ _ fun _ _ => ⟨rfl, rfl, rfl⟩, exec_of_idleOnly fun _ => rfl⟩

/-- Settles O30: RDX is legal in every phase, and answers the word view of the buffer. -/
theorem rdxReadsABufferWord : Obligations.RdxReadsABufferWord := by
  refine ⟨wordsOf_of_tables _ _ _ _ fun _ _ => ⟨rfl, rfl, rfl⟩, fun k s => ?_⟩
  rw [exec_eq, after_legal rfl, effectOf, wordIndex_ofNat]
  rfl

/-- Settles O33: the sequences are the registers of `workingBefore`, each round of which is one `roundStep`. -/
theorem compressIsSixtyFourRounds : Obligations.CompressIsSixtyFourRounds := by
  intro acc buf
  let w := workingBefore acc buf
  refine ⟨fun i => (w i).a, fun i => (w i).b, fun i => (w i).c, fun i => (w i).d, ⟨rfl, rfl, rfl, rfl⟩, ?_, ?_⟩
  · intro i f g
    have hf : roundFn i (w i).b (w i).c (w i).d = f := roundFn_eq i _ _ _
    have hg : msgIndexNat i.val = g := msgIndexNat_eq i.val
    have hstep : w (i.val + 1) = roundStep buf (w i) i := workingBefore_succ acc buf i
    obtain ⟨hlt, hround⟩ := roundStep_eq buf (w i) hf hg
    refine ⟨hlt, ?_⟩
    simp only [hstep, hround, true_and]
    rfl
  · exact compress_eq acc buf

/-- Settles O34: the amounts by looking at the table's 64 entries, and `getLsbD_rotl`. -/
theorem rotationsPermuteBits : Obligations.RotationsPermuteBits :=
  ⟨by decide, fun x _ _ hs j => getLsbD_rotl x hs j.isLt⟩

/-- Settles O35: the one round is `roundReading`. -/
theorem eachQuartileReadsEveryWordOnce : Obligations.EachQuartileReadsEveryWordOnce := by
  intro q g
  have hdiv := roundReading_div q g.val
  refine ⟨⟨roundReading q g.val, by omega⟩, ⟨hdiv, ?_⟩, fun i hi hg => ?_⟩
  · exact Fin.ext ((msgIndexNat_eq_iff hdiv g.isLt).mpr rfl)
  · exact Fin.ext ((msgIndexNat_eq_iff hi g.isLt).mp (congrArg Fin.val hg))

end Sys2Proof.Machine
end

section
/-! The statements about the digest serializer (42_digest_serializer.md): the hexadecimal characters of a digest, and the
commands that read its bytes, its characters and the accumulator. -/

namespace Sys2Proof.Machine

/-! ## Characters (42 R171) -/

/-- The four-bit value that character m renders: the high half of byte m / 2 for even m, the low half for odd m. -/
theorem exists_hexChar_getElem_hex (d : Vector Byte 16) (m : Nat) (hm : m < 32) :
    ∃ v : BitVec 4, (hex d)[m] = hexChar v ∧
      v.toNat = if m % 2 = 0 then d[m / 2].toNat / 16 else d[m / 2].toNat % 16 := by
  rw [getElem_hex]
  split
  · exact ⟨_, rfl, toNat_highHalf _⟩
  · exact ⟨_, rfl, toNat_lowHalf _⟩

/-- The response word of a character: every character code fits a byte. -/
theorem zext32_hexChar (v : BitVec 4) :
    zext32 (hexChar v) = BitVec.ofNat 32 (if v.toNat ≤ 9 then 0x30 + v.toNat else 0x61 + (v.toNat - 10)) := by
  have hv := v.isLt
  rw [hexChar_eq, zext32, ← BitVec.toNat_inj]
  simp only [BitVec.toNat_setWidth, BitVec.toNat_ofNat]
  split <;> omega

/-! ## The commands (42 section 2) -/

/-- `exec_of_idleOnly` for any phase that alone admits a command: its effect there, the failure of the phase check
elsewhere. -/
theorem exec_of_onlyIn {i : Instr} {p : Phase} (hi : ∀ q, legalIn i q = (q == p)) (s : State) :
    (s.phase = p → exec i s = .next (effectOf i s)) ∧
    (s.phase ≠ p → exec i s = .next (s.raise .badPhase)) := by
  refine ⟨fun h => ?_, fun h => ?_⟩
  · rw [exec_eq, after_legal (by simp [hi, h])]
  · rw [exec_eq, after_illegal (by simp [hi, h])]

/-! ## The statements -/

/-- Settles O40: the two characters of byte n by the parity of their indices. -/
theorem hexCharacters : Obligations.HexCharacters := by
  intro d n char
  constructor
  · obtain ⟨v, hv, hhalf⟩ := exists_hexChar_getElem_hex d (2 * n.val) (by omega)
    rw [hv, hexChar_eq, hhalf]
    simp [char]
  · obtain ⟨v, hv, hhalf⟩ := exists_hexChar_getElem_hex d (2 * n.val + 1) (by omega)
    rw [hv, hexChar_eq, hhalf]
    simp [char, show (2 * n.val + 1) / 2 = n.val by omega]

/-- Settles O21: DONE alone admits RDDIG, and byte n of the digest is that of word n / 4. -/
theorem rddigReadsADigestByte : Obligations.RddigReadsADigestByte := by
  refine ⟨wordsOf_of_tables _ _ _ _ fun _ _ => ⟨rfl, rfl, rfl⟩, fun n s => ?_⟩
  obtain ⟨hdone, hother⟩ := exec_of_onlyIn (i := .rddig (BitVec.ofNat 8 n.val)) (fun _ => rfl) s
  refine ⟨fun h => ?_, hother⟩
  rw [hdone h]
  simp only [effectOf, digestIndex_ofNat, Fin.getElem_fin, getElem_serialize]
  rfl

/-- Settles O22: DONE alone admits RDHEX, and character m renders a half of digest byte m / 2. -/
theorem rdhexReadsAHexCharacter : Obligations.RdhexReadsAHexCharacter := by
  refine ⟨wordsOf_of_tables _ _ _ _ fun _ _ => ⟨rfl, rfl, rfl⟩, ?_⟩
  intro m s byte half
  obtain ⟨hdone, hother⟩ := exec_of_onlyIn (i := .rdhex (BitVec.ofNat 8 m.val)) (fun _ => rfl) s
  refine ⟨fun h => ?_, hother⟩
  have hbyte : (serialize s.acc)[m.val / 2] = byte := by
    rw [getElem_serialize]
    simp only [Nat.div_div_eq_div_mul]
    rfl
  obtain ⟨v, hv, hhalf⟩ := exists_hexChar_getElem_hex (serialize s.acc) m.val m.isLt
  rw [hbyte] at hhalf
  rw [hdone h]
  simp only [effectOf, hexIndex_ofNat, Fin.getElem_fin, hv, zext32_hexChar, hhalf]
  rfl

/-- Settles O23: RDACC is legal in every phase. -/
theorem rdaccReadsAWord : Obligations.RdaccReadsAWord := by
  refine ⟨wordsOf_of_tables _ _ _ _ fun _ _ => ⟨rfl, rfl, rfl⟩, fun k s => ?_⟩
  rw [exec_eq, after_legal rfl]
  simp only [effectOf, accIndex_ofNat]
  rfl

end Sys2Proof.Machine
end

section
/-! The statements about the control and status commands (43_control.md), each of which every phase admits. -/

namespace Sys2Proof.Machine

/-! ## What the commands answer (10_state.md R30, 43 R193) -/

/-- A field of a register put at bit k, as a number (00_scope.md R7). -/
theorem setWidth_shiftLeft_eq_ofNat {n w : Nat} (x : BitVec n) (k : Nat) :
    x.setWidth w <<< k = BitVec.ofNat w (x.toNat <<< k) := by
  rw [← BitVec.toNat_inj]
  simp [Nat.shiftLeft_eq]

/-- STATUS as the formula of R30 on the numbers in its fields. -/
theorem status_eq_ofNat (s : State) : s.status = BitVec.ofNat 32 (s.phase.code.toNat ||| (s.err.toNat <<< 2) |||
    (s.lenOvf.toNat <<< 3) ||| (s.cause.code.toNat <<< 4) ||| (s.fill.toNat <<< 8)) := by
  simp only [State.status, setWidth_shiftLeft_eq_ofNat, BitVec.toNat_ofBool, BitVec.ofNat_or, BitVec.ofNat_toNat]

theorem halfOf_eq_ofNat (len : Word64) (h : Nat) : halfOf len h = BitVec.ofNat 32 (len.toNat / 2 ^ (32 * h)) := by
  rw [halfOf, BitVec.extractLsb', Nat.shiftRight_eq_div_pow]

/-! ## The word of a command (30_encoding.md R70, R76) -/

/-- A well-formed command has one word: the decoder reads it back, and a word that decodes to the command is that one. -/
theorem decode_ok_iff {i : Instr} (hi : i.wellFormed = true) (w : Word64) : decode w = .ok i ↔ w = encode i := by
  constructor
  · intro h
    obtain ⟨_, hword⟩ := oneWordPerCommand w i h
    exact hword.symm
  · rintro rfl
    rw [decode_encode, if_pos hi]

theorem encode_nop : encode .nop = 0x0000000000000000 := by decide

/-! ## The statements -/

/-- Settles O16: NOP is legal in every phase, and the all-zero word is its encoding. -/
theorem nopDoesNothing : Obligations.NopDoesNothing := by
  refine ⟨wordsOf_of_tables _ _ _ _ fun _ _ => ⟨rfl, rfl, rfl⟩, fun w => ?_, fun s => ?_⟩
  · rw [decode_ok_iff rfl, encode_nop]
  · rw [exec_eq, after_legal rfl]
    rfl

/-- Settles O24: RDSTAT is legal in every phase, and STATUS is the formula on numbers. -/
theorem rdstatReadsStatus : Obligations.RdstatReadsStatus := by
  refine ⟨wordsOf_of_tables _ _ _ _ fun _ _ => ⟨rfl, rfl, rfl⟩, fun s => ?_⟩
  rw [exec_eq, after_legal rfl, effectOf, status_eq_ofNat]
  rfl

/-- Settles O25: RDLEN is legal in every phase, and half h of LEN is LEN / 2^(32h), truncated to a word. -/
theorem rdlenReadsHalfOfLen : Obligations.RdlenReadsHalfOfLen := by
  refine ⟨wordsOf_of_tables _ _ _ _ fun _ _ => ⟨rfl, rfl, rfl⟩, fun h s => ?_⟩
  rw [exec_eq, after_legal rfl, effectOf, lenHalf_ofNat, halfOf_eq_ofNat]
  rfl

/-- Settles O26: IDLE is legal in every phase, and writes PHASE alone. -/
theorem idleLeavesThePhase : Obligations.IdleLeavesThePhase := by
  refine ⟨wordsOf_of_tables _ _ _ _ fun _ _ => ⟨rfl, rfl, rfl⟩, fun s => ?_⟩
  rw [exec_eq, after_legal rfl]
  rfl

end Sys2Proof.Machine
end

section
/-! The statements about the exceptions (60_exceptions.md): which words each cause of the decoder rejects, where the
phase check fails, what a failure changes, and that LEN_OVF is no failure. -/

namespace Sys2Proof.Machine

/-! ## The decoder's tables as the lists of 60 R213 and R214 -/

theorem idxWidth_eq_none_iff (i : Instr) :
    idxWidth i = none ↔ (opcode i).toNat ∈ [0x00, 0x01, 0x02, 0x03, 0x04, 0x08, 0x0a, 0x0d] := by
  cases i <;> simp [idxWidth, opcode]

/-- The unused-data check by opcode: no bit of DATA, the low byte of it, or all of it is used. -/
theorem unusedData_iff (i : Instr) (d : Word) : d &&& ~~~ dataMask i ≠ 0 ↔
    ((opcode i).toNat ∈ [0x00, 0x01, 0x04, 0x05, 0x06, 0x07, 0x08, 0x09, 0x0a, 0x0d, 0x0e] ∧ d.toNat ≠ 0) ∨
      ((opcode i).toNat = 0x02 ∧ 2 ^ 8 ≤ d.toNat) := by
  have hnoBits : d &&& ~~~(0#32) ≠ 0 ↔ d.toNat ≠ 0 := by
    rw [unused_noBits, ne_eq, ← BitVec.toNat_inj]
    rfl
  cases i with
  | absorb _ => exact (unused_absorb_iff d).not.trans (by simp [opcode])
  | absorbw _ | loada _ _ | loadx _ _ => exact iff_of_false (not_not_intro (unused_allBits d)) (by simp [opcode])
  | _ => exact hnoBits.trans (by simp [opcode])

/-- The index widths as the bounds of R214. -/
theorem indexTooLarge_iff (i : Instr) (idx : Nat) : (∃ n, idxWidth i = some n ∧ 2 ^ n ≤ idx) ↔
    ((opcode i).toNat = 0x05 ∧ 16 ≤ idx) ∨ ((opcode i).toNat = 0x06 ∧ 32 ≤ idx) ∨
    ((opcode i).toNat = 0x07 ∧ 4 ≤ idx) ∨ ((opcode i).toNat = 0x09 ∧ 2 ≤ idx) ∨
    ((opcode i).toNat = 0x0b ∧ 4 ≤ idx) ∨ ((opcode i).toNat = 0x0c ∧ 16 ≤ idx) ∨
    ((opcode i).toNat = 0x0e ∧ 16 ≤ idx) := by
  cases i <;> simp [idxWidth, opcode]

/-! ## The causes of the decoder (30_encoding.md R76) -/

/-- A field the command does not use is not zero: RSVD, IDX of a command without index, an unused bit of DATA. -/
def UnusedNonzero (i : Instr) (w : Word64) : Prop :=
  rsvdField w ≠ 0 ∨ (idxWidth i = none ∧ idxField w ≠ 0) ∨ dataField w &&& ~~~ dataMask i ≠ 0

/-- The index is beyond the command's index width. -/
def IndexTooLarge (i : Instr) (w : Word64) : Prop := ∃ n, idxWidth i = some n ∧ 2 ^ n ≤ (idxField w).toNat

/-- A command without index fails the index check as RSVD_NONZERO, one with an index as BAD_INDEX. -/
theorem checkIndex_error_iff (idx : Byte) (i : Instr) (e : DecodeError) : checkIndex idx i = .error e ↔
    (e = .rsvdNonzero ∧ idxWidth i = none ∧ idx ≠ 0) ∨
    (e = .badIndex ∧ ∃ n, idxWidth i = some n ∧ 2 ^ n ≤ idx.toNat) := by
  unfold checkIndex
  rcases idxWidth i with _ | n
  · by_cases h : idx = 0#8 <;> simp [h, @eq_comm _ _ e]
  · simp only [shiftRight_ne_zero_iff]
    by_cases h : 2 ^ n ≤ idx.toNat <;> simp [h, @eq_comm _ _ e]

/-- The word of a defined opcode fails for a nonzero unused field first, then for its index. -/
theorem decode_error_iff {w : Word64} {i : Instr} (h : instrOf (opField w) (idxField w) (dataField w) = some i)
    (e : DecodeError) : decode w = .error e ↔
      (e = .rsvdNonzero ∧ UnusedNonzero i w) ∨ (e = .badIndex ∧ ¬ UnusedNonzero i w ∧ IndexTooLarge i w) := by
  simp only [decode, h, UnusedNonzero, IndexTooLarge]
  by_cases hr : rsvdField w = 0#16
  · by_cases hd : dataField w &&& ~~~ dataMask i = 0#32
    · rcases hw : idxWidth i with _ | n <;> simp [hr, hd, hw, checkIndex_error_iff]
    · simp [hr, hd, @eq_comm _ _ e]
  · simp [hr, @eq_comm _ _ e]

theorem decode_of_undefined {w : Word64} (h : instrOf (opField w) (idxField w) (dataField w) = none) :
    decode w = .error .illegalOp := by
  simp only [decode, h]

/-- A word that fails to decode is the failure with the decoder's cause. -/
theorem accept_of_decode_error {w : Word64} {e : DecodeError} (h : decode w = .error e) (s : State) :
    accept w s = .next (s.raise (causeOf e)) := by
  rw [accept_eq, afterWord_error h]

/-! ## The phase check (60 R215) -/

/-- The entries "no" of the phase columns. -/
theorem legalIn_eq_false_iff (i : Instr) (p : Phase) : legalIn i p = false ↔
    (((∃ b, i = .absorb b) ∨ (∃ d, i = .absorbw d) ∨ i = .final) ∧ p ≠ .absorb) ∨
    (((∃ k, i = .rddig k) ∨ (∃ k, i = .rdhex k)) ∧ p ≠ .done) ∨
    (((∃ k d, i = .loada k d) ∨ (∃ k d, i = .loadx k d) ∨ i = .compress) ∧ p ≠ .idle) := by
  cases i <;> simp [legalIn]

/-! ## LEN_OVF (60 R220) -/

/-- LEN_OVF is read by RDSTAT alone: with the flag changed, the effect of any other command differs at most in it. -/
theorem effectOf_withLenOvf {i : Instr} (hi : i ≠ .rdstat) (s : State) (b : Bool) :
    ∃ o, effectOf i { s with lenOvf := b } = { effectOf i s with lenOvf := o } := by
  cases i with
  | rdstat => exact absurd rfl hi
  | final =>
    refine ⟨b, ?_⟩
    simp only [effectOf, State.finish]
    split <;> rfl
  | _ => exact ⟨_, rfl⟩

theorem after_withLenOvf {i : Instr} (hi : i ≠ .rdstat) (s : State) (b : Bool) :
    ∃ o, after i { s with lenOvf := b } = { after i s with lenOvf := o } := by
  unfold after
  dsimp only
  split
  · exact effectOf_withLenOvf hi s b
  · exact ⟨b, rfl⟩

/-! ## The statements -/

/-- Settles O6: a word of an undefined opcode is ILLEGAL_OP; of any other, the two later causes are read off the tables
of its command. -/
theorem rejectedWords : Obligations.RejectedWords := by
  intro w s op idx rsvd data illegal reserved outOfRange
  have haccept (e : DecodeError) (h : decode w = .error e) := accept_of_decode_error h s
  have hillegal : instrOf (opField w) (idxField w) (dataField w) = none ↔ illegal := instrOf_none_iff _ _ _
  rcases hi : instrOf (opField w) (idxField w) (dataField w) with _ | i
  · have hundefined : illegal := hillegal.mp hi
    refine ⟨?_, ?_, ?_, haccept _, haccept _, haccept _⟩ <;> simp [decode_of_undefined hi, hundefined]
  · have hlegal : ¬illegal := by simp [← hillegal, hi]
    obtain ⟨hop, _⟩ := instrOf_some hi
    have hreserved : UnusedNonzero i w ↔ reserved := by
      unfold UnusedNonzero
      rw [idxWidth_eq_none_iff, unusedData_iff, ← hop, ne_eq, ne_eq, ← BitVec.toNat_inj, ← BitVec.toNat_inj]
      rfl
    have hrange : IndexTooLarge i w ↔ outOfRange := by
      unfold IndexTooLarge
      rw [indexTooLarge_iff, ← hop]
      rfl
    refine ⟨?_, ?_, ?_, haccept _, haccept _, haccept _⟩ <;>
      simp [decode_error_iff hi, hreserved, hrange, hlegal]

/-- Settles O7: `no` is the phase check failing, and a command that passes it answers without error. -/
theorem badPhaseExactlyWhereTheTableSaysNo : Obligations.BadPhaseExactlyWhereTheTableSaysNo := by
  intro i s _ no
  have hno : legalIn i s.phase = false ↔ no := legalIn_eq_false_iff i s.phase
  refine ⟨fun h => ?_, fun h => ?_⟩
  · rw [exec_eq, after_illegal (hno.mpr h)]
    rfl
  · rw [exec_eq, after_legal (by simpa [← hno] using h)]
    obtain ⟨d, hd⟩ := effectOf_rsp i s
    exact ⟨_, d, rfl, hd⟩

/-- Settles O8: an accepted word that does not have the effect of a command is `State.raise`, and an effect answers
without error. -/
theorem failureChangesOnlyErrAndCause : Obligations.FailureChangesOnlyErrAndCause := by
  intro w s t d ht hd
  obtain rfl := accept_next_iff.mp ht
  rcases afterWord_fails_or_effect w s with ⟨c, hc, hw⟩ | ⟨i, _, hw⟩ <;> rw [hw] at hd ⊢
  · cases hd
    exact ⟨c, hc, rfl, rfl⟩
  · obtain ⟨_, hr⟩ := effectOf_rsp i s
    cases hr.symm.trans hd

/-- Settles O14: RDSTAT answers without error with the flag set and clear; no other command reads it. -/
theorem lenOvfFailsNoCommand : Obligations.LenOvfFailsNoCommand := by
  intro i s t b ht
  obtain rfl : after i s = t := by rwa [exec_eq, Host.Outcome.next.injEq] at ht
  refine ⟨after i { s with lenOvf := b }, exec_eq _ _, ?_⟩
  by_cases hi : i = .rdstat
  · subst hi
    refine ⟨rfl, rfl, rfl, rfl, rfl, rfl, rfl, fun r hr => ?_, fun h => absurd rfl h⟩
    cases hr
    exact ⟨_, rfl⟩
  · obtain ⟨o, ho⟩ := after_withLenOvf hi s b
    rw [ho]
    exact ⟨rfl, rfl, rfl, rfl, rfl, rfl, rfl, fun r hr => ⟨r.data, hr⟩, fun _ => rfl⟩

end Sys2Proof.Machine
end

section
/-! The statements about reset, the port and its hazards (70_reset_and_hazards.md): a sample in reset, an outstanding
response, a host that waits or breaks its duty, and the latency class of every command. -/

namespace Sys2Proof.Machine

/-! ## One step -/

/-- A sample in reset resets the block, whatever it held (70 R243). -/
theorem step_reset {s : State} {p : PortSample} {rest : List PortSample} (hs : s.host = p :: rest)
    (hp : p.rstN = false) : step s = .next { State.reset with host := rest } := by
  rw [step_cons hs, sample, if_pos hp]
  rfl

/-- With no command presented, none held and no response to hand over, the sample is consumed and nothing happens. -/
theorem step_quiet {s : State} {ready : Bool} {rest : List PortSample}
    (hs : s.host = { rstN := true, cmd := none, rspReady := ready } :: rest) (hr : s.rsp = none) (hh : s.held = none) :
    step s = .next { s with host := rest } := by
  have hb : brokeHold ⟨true, none, ready⟩ { s with host := rest } = false := brokeHold_false (.inl hh)
  rw [step_cons hs, sample, if_neg (by simp), if_neg (by simp [hb]), transact]
  simp only [hr, hh]

/-! ## The host's duty (70 R247) -/

/-- At the next sample, not in reset, the host changes or withdraws the word it is presenting. -/
def State.BreaksHold (s : State) : Prop :=
  ∃ p rest w, s.host = p :: rest ∧ p.rstN = true ∧ s.held = some w ∧ p.cmd ≠ some w

theorem State.breaksHold_cons_iff {s : State} {p : PortSample} {rest : List PortSample} (hs : s.host = p :: rest) :
    s.BreaksHold ↔ p.rstN = true ∧ brokeHold p { s with host := rest } = true := by
  rw [brokeHold_iff]
  constructor
  · rintro ⟨q, rest', w, hs', hp, hw⟩
    obtain ⟨rfl, rfl⟩ := List.cons.inj (hs.symm.trans hs')
    exact ⟨hp, w, hw⟩
  · rintro ⟨hp, w, hw⟩
    exact ⟨p, rest, w, hs, hp, hw⟩

/-- A sample is refused where the host breaks its duty, and answers a next state everywhere else. -/
theorem sample_refused_or_next (p : PortSample) (s : State) :
    ((p.rstN = true ∧ brokeHold p s = true) ∧ sample p s = .refused .hostBrokeHold) ∨
    (¬(p.rstN = true ∧ brokeHold p s = true) ∧ ∃ t, sample p s = .next t) := by
  rcases sample_cases p s with ⟨hp, h⟩ | ⟨hp, hb, h⟩ | ⟨_, hb, _, h⟩ | ⟨_, hb, _, _, h⟩ | ⟨w, _, hb, _, _, h⟩
  · exact .inr ⟨by simp [hp], _, h⟩
  · exact .inl ⟨⟨hp, hb⟩, h⟩
  all_goals exact .inr ⟨by simp [hb], _, h⟩

theorem step_refused_or_next (s : State) :
    (s.BreaksHold ∧ step s = .refused .hostBrokeHold) ∨ (¬s.BreaksHold ∧ ∃ t, step s = .next t) := by
  rcases hs : s.host with _ | ⟨p, rest⟩
  · refine .inr ⟨?_, s, step_nil hs⟩
    rintro ⟨p, rest, w, hs', _⟩
    cases hs.symm.trans hs'
  · rw [State.breaksHold_cons_iff hs, step_cons hs]
    exact sample_refused_or_next p _

/-! ## A response not taken -/

/-- While the host goes on as it was, presenting its word or none, and takes no response, only samples are consumed. -/
theorem run_untaken (n : Nat) {s : State} {r : Response} {rest : List PortSample} (hr : s.rsp = some r)
    (hs : s.host = List.replicate n { rstN := true, cmd := s.held, rspReady := false } ++ rest) :
    Host.Core.run Sys2Proof.core n s = .next { s with host := rest } := by
  induction n generalizing s with
  | zero =>
    obtain rfl : s.host = rest := hs
    rfl
  | succ n ih =>
    rw [List.replicate_succ, List.cons_append] at hs
    rw [run_succ n (step_await hs rfl hr (.inr rfl)), ih rfl rfl]
    simp [hr]

/-- A word first presented while the response waits is held, and the wait goes on. -/
theorem run_untaken_raised (k : Nat) {s : State} {r : Response} {w : Word64} {rest : List PortSample}
    (hr : s.rsp = some r) (hh : s.held = none)
    (hs : s.host = List.replicate (k + 1) { rstN := true, cmd := some w, rspReady := false } ++ rest) :
    Host.Core.run Sys2Proof.core (k + 1) s = .next { s with host := rest, held := some w } := by
  rw [List.replicate_succ, List.cons_append] at hs
  rw [run_succ k (step_await hs rfl hr (.inl hh)), run_untaken k rfl rfl]
  simp [hr]

/-! ## Latency classes (70 R248) -/

theorem latencyClass_illegal {i : Instr} {s : State} (h : legalIn i s.phase = false) : latencyClass i s = .simple := by
  simp [latencyClass, h]

/-- A command that answers with an error failed its phase check, so it is simple. -/
theorem latencyClass_of_failed {i : Instr} {s : State} {d : Word}
    (h : (after i s).rsp = some { err := true, data := d }) : latencyClass i s = .simple := by
  rcases hl : legalIn i s.phase with _ | _
  · exact latencyClass_illegal hl
  · obtain ⟨_, hd⟩ := effectOf_rsp i s
    rw [after_legal hl] at h
    cases hd.symm.trans h

theorem wordClass_ok {w : Word64} {i : Instr} (h : decode w = .ok i) (s : State) :
    wordClass w s = latencyClass i s := by
  simp only [wordClass, h]

theorem wordClass_error {w : Word64} {e : DecodeError} (h : decode w = .error e) (s : State) :
    wordClass w s = .simple := by
  simp only [wordClass, h]

theorem wordClass_of_failed {w : Word64} {s : State} {d : Word}
    (h : (afterWord w s).rsp = some { err := true, data := d }) : wordClass w s = .simple := by
  rcases hw : decode w with e | i
  · exact wordClass_error hw s
  · rw [afterWord_ok hw] at h
    exact (wordClass_ok hw s).trans (latencyClass_of_failed h)

/-- The commands without a row of their own in R248 are simple, legal or not. -/
theorem latencyClass_simple {i : Instr} (s : State) (habsorb : ∀ b, i ≠ .absorb b) (habsorbw : ∀ d, i ≠ .absorbw d)
    (hcompress : i ≠ .compress) (hfinal : i ≠ .final) : latencyClass i s = .simple := by
  cases i with
  | absorb b => exact absurd rfl (habsorb b)
  | absorbw d => exact absurd rfl (habsorbw d)
  | compress => exact absurd rfl hcompress
  | final => exact absurd rfl hfinal
  | _ => exact ite_self _

/-- FILL, six bits wide, gets smaller by n more bytes exactly when the buffer's 64th byte is among them. -/
theorem completesBlock_iff_wraps {n : Nat} (s : State) (hpos : 0 < n) (hn : n < 64) :
    completesBlock n s = true ↔ (s.fill + BitVec.ofNat 6 n).toNat < s.fill.toNat := by
  have hfill := s.fill.isLt
  simp only [completesBlock, decide_eq_true_eq, BitVec.toNat_add, BitVec.toNat_ofNat]
  omega

/-- The class of a command that absorbs n bytes, told from FILL before and after it. -/
theorem absorbing_class_iff {n : Nat} {s t : State} {c : LatencyClass} (hpos : 0 < n) (hn : n < 64)
    (ht : t.fill = s.fill + BitVec.ofNat 6 n) (hc : c = if completesBlock n s then .compress else .absorb) :
    (c = .compress ↔ t.fill.toNat < s.fill.toNat) ∧ (c = .absorb ↔ ¬t.fill.toNat < s.fill.toNat) := by
  rw [ht, ← completesBlock_iff_wraps s hpos hn, hc]
  cases completesBlock n s <;> simp

theorem latencyClass_absorb {s : State} (h : s.phase = .absorb) (b : Byte) :
    latencyClass (.absorb b) s = if completesBlock 1 s then .compress else .absorb := by
  simp [latencyClass, legalIn, h]

theorem latencyClass_absorbw {s : State} (h : s.phase = .absorb) (data : Word) :
    latencyClass (.absorbw data) s = if completesBlock 4 s then .compress else .absorb := by
  simp [latencyClass, legalIn, h]

/-! ## The statements -/

/-- Settles O51: the wait with the host going on as it was; a word first presented during the wait is one step between
two such waits. -/
theorem untakenResponseWaitsForever : Obligations.UntakenResponseWaitsForever := by
  refine ⟨fun n s r cmd rest hr hh hs => ?_, fun n k s r w rest hr hh hs => ?_⟩
  · subst hh
    exact run_untaken n hr hs
  · rw [run_add n (k + 1) (run_untaken n hr (hh ▸ hs))]
    exact run_untaken_raised k hr hh rfl

/-- Settles O52: a step is refused where the host breaks its duty, and answers a next state everywhere else. -/
theorem onlyABrokenHoldStops : Obligations.OnlyABrokenHoldStops := by
  intro s
  change _ ∧ _ ∧ (_ ↔ s.BreaksHold)
  rcases step_refused_or_next s with ⟨hb, h⟩ | ⟨hb, t, h⟩ <;> simp [h, hb]

/-- Settles O55: a failed word by its error response, a simple command by its constructor, an absorbing one by FILL. -/
theorem latencyClasses : Obligations.LatencyClasses := by
  refine ⟨fun w s t d ht hd => ?_, fun w i s hi => wordClass_ok hi s, fun i s t d ht hd => ?_,
    fun i s => latencyClass_simple s, fun s h => ?_, fun s h => ?_, fun data s t h ht => ?_, fun b s t h ht => ?_⟩
  · obtain rfl := accept_next_iff.mp ht
    exact wordClass_of_failed hd
  · rw [exec_eq] at ht
    cases ht
    exact latencyClass_of_failed hd
  · simp [latencyClass, legalIn, h]
  · simp [latencyClass, legalIn, h]
  · rw [exec_eq, after_legal (by simp [legalIn, h])] at ht
    cases ht
    exact absorbing_class_iff (by decide) (by decide) (State.absorbWord_fill data s) (latencyClass_absorbw h data)
  · rw [exec_eq, after_absorb h] at ht
    cases ht
    exact absorbing_class_iff (by decide) (by decide) (State.absorbByte_fill b s) (latencyClass_absorb h b)

/-- Settles O2: the step is the reset of the block, and nothing is ready in reset. -/
theorem resetSampleGivesTheResetState : Obligations.ResetSampleGivesTheResetState := by
  intro s p rest hs hp
  exact ⟨step_reset hs hp, by simp [State.cmdReady, hp], rfl⟩

/-- Settles O50: the block is not ready, and the response waits for the host. -/
theorem outstandingResponseBlocksThePort : Obligations.OutstandingResponseBlocksThePort := by
  intro s r p rest hs hp hr hb
  exact ⟨by simp [State.cmdReady, hr], step_await hs hp hr hb⟩

/-- Settles O54: no sample, and a quiet one. -/
theorem quietPortChangesNothing : Obligations.QuietPortChangesNothing :=
  ⟨fun _ => step_nil, fun _ _ _ => step_quiet⟩

end Sys2Proof.Machine
end

section
/-! The digests the source states (95_test_vectors.md section 1): each message fits in one padded block, so its digest is
one compression of IV. -/

namespace Sys2Proof.Machine

/-! ## Messages of one block (40_padding_encoder.md R101, R111) -/

theorem blocks_pad_short {m : List Byte} (h : m.length ≤ 55) : blocks (pad m) = [blockAt (pad m) 0] := by
  have hn : (pad m).length / 64 = 1 := by rw [length_pad_div]; omega
  rw [blocks, hn]
  rfl

theorem md5_short {m : List Byte} (h : m.length ≤ 55) :
    md5 m = some (serialize (compress iv (blockAt (pad m) 0))) := by
  rw [md5, if_pos (by omega), digestAcc, blocks_pad_short h]
  rfl

/-! ## The statement -/

/-- Settles O41: each message is padded to one block, and the kernel evaluates that block's 64 rounds. -/
theorem sourceVectors : Obligations.SourceVectors := by
  refine ⟨?_, ?_, ?_⟩
  · rw [md5_short (by decide)]
    decide +kernel
  · rw [md5_short (by decide)]
    decide +kernel
  · rw [md5_short (by decide)]
    decide +kernel

end Sys2Proof.Machine
end
